-- ==== Sys2Proof/Word.lean ====
section
/-! DEFINITION. The widths of the machine's values (00_scope R7): bit 0 is the least significant bit, everything is
unsigned. -/

namespace Sys2Proof

/-- An 8-bit value: a general register, a timer, a memory byte, an immediate kk (R7, R10, R22, R23). -/
abbrev Byte := BitVec 8

/-- A 16-bit value: I, PC, a stack entry, an instruction word (R16, R18, R21, R60). -/
abbrev Word := BitVec 16

/-- A 12-bit immediate address nnn (30_encoding R63). -/
abbrev Addr12 := BitVec 12

/-- The number of a general register, 0..15; all sixteen are legal in every operand (10_state R10, R11). -/
abbrev RegNum := Fin 16

/-- The number of a key, 0x0..0xF (10_state R26). -/
abbrev Key := Fin 16

end Sys2Proof
end

