-- ==== Sys2Proof/Machine/Flags.lean ====
section
/-! DEFINITION. Every value an instruction writes to VF as a flag (10_state R14, R15), but for the collision bit of
Dxyn, which the rasteriser computes. -/

namespace Sys2Proof.Machine

/-- Exactly 0 or 1 (R15). -/
def flagOf (c : Bool) : Byte := if c then 0x01#8 else 0x00#8

/-- 8xy4: 1 if the exact sum is above 255 (41_load_and_alu R107). -/
def carryOut (a b : Byte) : Byte := flagOf (decide (a.toNat + b.toNat > 255))

/-- 8xy5 and 8xy7: 1 if the minuend is at least the subtrahend (R108, R110). -/
def noBorrow (minuend subtrahend : Byte) : Byte := flagOf (decide (minuend.toNat ≥ subtrahend.toNat))

/-- 8xy6: bit 0 of the shifted operand (R109). -/
def shiftedOutRight (b : Byte) : Byte := flagOf (b.getLsbD 0)

/-- 8xyE: bit 7 of the shifted operand (R111). -/
def shiftedOutLeft (b : Byte) : Byte := flagOf (b.getLsbD 7)

/-- Fx1E under `ADDI_SETS_VF`: 1 if the exact sum is above 0x0FFF (42_index_and_memory R122). -/
def indexOverflow (i : Word) (a : Byte) : Byte := flagOf (decide (i.toNat + a.toNat > 0x0FFF))

end Sys2Proof.Machine
end

