-- ==== Sys2Proof/Config.lean ====
section
/-! DEFINITION. What is fixed for a machine: the parameters of 00_scope R5, the three open parameters of R6, and the
free byte of `draw8()` (41_load_and_alu R113). -/

namespace Sys2Proof

namespace Config

/-- `MEM_SIZE` (R5). -/
def memSize : Nat := 4096
/-- `PROG_BASE` (R5). -/
def progBase : Nat := 0x200
/-- `FONT_BASE` (R5). -/
def fontBase : Nat := 0x050
/-- `MAX_IMAGE` = MEM_SIZE - PROG_BASE (R5, R181). -/
def maxImage : Nat := 3584

@[simp] theorem memSize_eq : memSize = 4096 := rfl
@[simp] theorem progBase_eq : progBase = 0x200 := rfl
@[simp] theorem fontBase_eq : fontBase = 0x050 := rfl
@[simp] theorem maxImage_eq : maxImage = 3584 := rfl

/-- The byte of the n-th execution of `draw8()` (R113): a FREE VALUE, any byte at every execution. It has no body, so
no proof can use a value of it (log 3). -/
opaque freeByte : Nat → Byte

end Config

/-- The three open parameters of R6. They are configuration: no event changes them. The spec makes them arguments of
the model; here they are data that State carries, so a statement about every state covers every choice (log 2). -/
structure Quirks where
  /-- `SHIFT_USES_VY`: 8xy6 and 8xyE shift V[y] into V[x] (true) or V[x] in place (false). -/
  shiftUsesVy : Bool
  /-- `ADDI_SETS_VF`: Fx1E writes VF (true) or leaves it alone (false). -/
  addiSetsVf : Bool
  /-- `JUMP_USES_VX`: Bnnn adds V[nnn[11:8]] (true) or V[0] (false). -/
  jumpUsesVx : Bool
  deriving DecidableEq, Repr

/-- The defaults of R6, all false. -/
def Quirks.default : Quirks := { shiftUsesVy := false, addiSetsVf := false, jumpUsesVx := false }

end Sys2Proof
end

