-- ==== Sys2Proof/Syntax.lean ====
section
/-! DEFINITION. The 34 instructions of 30_encoding R66, with decoded operands: register numbers x and y, the 8-bit
immediate kk, the 12-bit address nnn, the count n (R61, R63). The operand types hold exactly the values an encoding
can carry. -/

namespace Sys2Proof

/-- One constructor per row of spec/opcode_table.json, in the order of R66. -/
inductive Instr where
  /-- 00E0 `CLS` (R130) -/
  | cls
  /-- 00EE `RET` (R81) -/
  | ret
  /-- 1nnn `JMP nnn` (R82) -/
  | jmp (nnn : Addr12)
  /-- 2nnn `CALL nnn` (R83) -/
  | call (nnn : Addr12)
  /-- 3xkk `SE Vx, kk` (R85) -/
  | seImm (x : RegNum) (kk : Byte)
  /-- 4xkk `SNE Vx, kk` (R86) -/
  | sneImm (x : RegNum) (kk : Byte)
  /-- 5xy0 `SE Vx, Vy` (R87) -/
  | seReg (x y : RegNum)
  /-- 6xkk `LD Vx, kk` (R101) -/
  | ldImm (x : RegNum) (kk : Byte)
  /-- 7xkk `ADD Vx, kk` (R102) -/
  | addImm (x : RegNum) (kk : Byte)
  /-- 8xy0 `LD Vx, Vy` (R103) -/
  | ldReg (x y : RegNum)
  /-- 8xy1 `OR Vx, Vy` (R104) -/
  | orReg (x y : RegNum)
  /-- 8xy2 `AND Vx, Vy` (R105) -/
  | andReg (x y : RegNum)
  /-- 8xy3 `XOR Vx, Vy` (R106) -/
  | xorReg (x y : RegNum)
  /-- 8xy4 `ADD Vx, Vy` (R107) -/
  | addReg (x y : RegNum)
  /-- 8xy5 `SUB Vx, Vy` (R108) -/
  | subReg (x y : RegNum)
  /-- 8xy6 `SHR Vx, Vy` (R109) -/
  | shr (x y : RegNum)
  /-- 8xy7 `SUBN Vx, Vy` (R110) -/
  | subn (x y : RegNum)
  /-- 8xyE `SHL Vx, Vy` (R111) -/
  | shl (x y : RegNum)
  /-- 9xy0 `SNE Vx, Vy` (R88) -/
  | sneReg (x y : RegNum)
  /-- Annn `LD I, nnn` (R121) -/
  | ldI (nnn : Addr12)
  /-- Bnnn `JMP V0, nnn` (R84) -/
  | jmpV0 (nnn : Addr12)
  /-- Cxkk `RND Vx, kk` (R112) -/
  | rnd (x : RegNum) (kk : Byte)
  /-- Dxyn `DRW Vx, Vy, n` (R131) -/
  | drw (x y : RegNum) (n : Fin 16)
  /-- Ex9E `SKP Vx` (R140) -/
  | skp (x : RegNum)
  /-- ExA1 `SKNP Vx` (R141) -/
  | sknp (x : RegNum)
  /-- Fx07 `LD Vx, DT` (R143) -/
  | ldVxDt (x : RegNum)
  /-- Fx0A `LD Vx, K` (R142) -/
  | ldVxK (x : RegNum)
  /-- Fx15 `LD DT, Vx` (R144) -/
  | ldDtVx (x : RegNum)
  /-- Fx18 `LD ST, Vx` (R145) -/
  | ldStVx (x : RegNum)
  /-- Fx1E `ADD I, Vx` (R122) -/
  | addI (x : RegNum)
  /-- Fx29 `LD F, Vx` (R123) -/
  | ldF (x : RegNum)
  /-- Fx33 `LD B, Vx` (R126) -/
  | ldB (x : RegNum)
  /-- Fx55 `LD [I], Vx` (R124) -/
  | storeRegs (x : RegNum)
  /-- Fx65 `LD Vx, [I]` (R125) -/
  | loadRegs (x : RegNum)
  deriving DecidableEq, Repr

end Sys2Proof
end

