-- ==== Sys2Proof/WellFormed.lean ====
section
/-! DEFINITION. The opcode table of 30_encoding R66 as mask and match, and what a well-formed word and a well-formed
instruction are. The decoder does not read this table: it is written from the procedure of R65, and the two are to be
proved equal. -/

namespace Sys2Proof

/-- One row of R66: `op` belongs to it when `op & mask = value`. -/
structure OpcodeRow where
  mask : Word
  value : Word
  deriving DecidableEq, Repr

/-- The word belongs to the row (R65). -/
def OpcodeRow.accepts (r : OpcodeRow) (op : Word) : Bool := op &&& r.mask == r.value

/-- The row of R66 that the instruction stands in. -/
def Instr.row : Instr → OpcodeRow
  | .cls => ⟨0xFFFF#16, 0x00E0#16⟩
  | .ret => ⟨0xFFFF#16, 0x00EE#16⟩
  | .jmp _ => ⟨0xF000#16, 0x1000#16⟩
  | .call _ => ⟨0xF000#16, 0x2000#16⟩
  | .seImm _ _ => ⟨0xF000#16, 0x3000#16⟩
  | .sneImm _ _ => ⟨0xF000#16, 0x4000#16⟩
  | .seReg _ _ => ⟨0xF00F#16, 0x5000#16⟩
  | .ldImm _ _ => ⟨0xF000#16, 0x6000#16⟩
  | .addImm _ _ => ⟨0xF000#16, 0x7000#16⟩
  | .ldReg _ _ => ⟨0xF00F#16, 0x8000#16⟩
  | .orReg _ _ => ⟨0xF00F#16, 0x8001#16⟩
  | .andReg _ _ => ⟨0xF00F#16, 0x8002#16⟩
  | .xorReg _ _ => ⟨0xF00F#16, 0x8003#16⟩
  | .addReg _ _ => ⟨0xF00F#16, 0x8004#16⟩
  | .subReg _ _ => ⟨0xF00F#16, 0x8005#16⟩
  | .shr _ _ => ⟨0xF00F#16, 0x8006#16⟩
  | .subn _ _ => ⟨0xF00F#16, 0x8007#16⟩
  | .shl _ _ => ⟨0xF00F#16, 0x800E#16⟩
  | .sneReg _ _ => ⟨0xF00F#16, 0x9000#16⟩
  | .ldI _ => ⟨0xF000#16, 0xA000#16⟩
  | .jmpV0 _ => ⟨0xF000#16, 0xB000#16⟩
  | .rnd _ _ => ⟨0xF000#16, 0xC000#16⟩
  | .drw _ _ _ => ⟨0xF000#16, 0xD000#16⟩
  | .skp _ => ⟨0xF0FF#16, 0xE09E#16⟩
  | .sknp _ => ⟨0xF0FF#16, 0xE0A1#16⟩
  | .ldVxDt _ => ⟨0xF0FF#16, 0xF007#16⟩
  | .ldVxK _ => ⟨0xF0FF#16, 0xF00A#16⟩
  | .ldDtVx _ => ⟨0xF0FF#16, 0xF015#16⟩
  | .ldStVx _ => ⟨0xF0FF#16, 0xF018#16⟩
  | .addI _ => ⟨0xF0FF#16, 0xF01E#16⟩
  | .ldF _ => ⟨0xF0FF#16, 0xF029#16⟩
  | .ldB _ => ⟨0xF0FF#16, 0xF033#16⟩
  | .storeRegs _ => ⟨0xF0FF#16, 0xF055#16⟩
  | .loadRegs _ => ⟨0xF0FF#16, 0xF065#16⟩

/-- The rows of R66, in its order. -/
def opcodeTable : List OpcodeRow :=
  [Instr.cls.row, Instr.ret.row, (Instr.jmp 0).row, (Instr.call 0).row, (Instr.seImm 0 0).row, (Instr.sneImm 0 0).row,
    (Instr.seReg 0 0).row, (Instr.ldImm 0 0).row, (Instr.addImm 0 0).row] ++
  [(Instr.ldReg 0 0).row, (Instr.orReg 0 0).row, (Instr.andReg 0 0).row, (Instr.xorReg 0 0).row,
    (Instr.addReg 0 0).row, (Instr.subReg 0 0).row, (Instr.shr 0 0).row, (Instr.subn 0 0).row, (Instr.shl 0 0).row] ++
  [(Instr.sneReg 0 0).row, (Instr.ldI 0).row, (Instr.jmpV0 0).row, (Instr.rnd 0 0).row, (Instr.drw 0 0 0).row,
    (Instr.skp 0).row, (Instr.sknp 0).row] ++
  [(Instr.ldVxDt 0).row, (Instr.ldVxK 0).row, (Instr.ldDtVx 0).row, (Instr.ldStVx 0).row, (Instr.addI 0).row,
    (Instr.ldF 0).row, (Instr.ldB 0).row, (Instr.storeRegs 0).row, (Instr.loadRegs 0).row]

/-- A word is well formed when some row of the table accepts it (R65, R68): this is the one check a word can fail,
and a word that fails it raises InvalidOpcode. -/
def wordWellFormed (op : Word) : Bool := opcodeTable.any (fun r => r.accepts op)

/-- An instruction is well formed when its row stands in the table. Its operands need no check: every value of the
operand types is legal (R63, R154: "all 16 values of x and y are legal"), so the types rule the ill-formed operands
out and every term of `Instr` is well formed. -/
def Instr.wellFormed (i : Instr) : Bool := opcodeTable.contains i.row

end Sys2Proof
end

