-- ==== Sys2Proof/Decode.lean ====
section
/-! DEFINITION. The decoder, written from the procedure of 30_encoding R65 over the fields of R61, and after it the
encoder, written from the encodings of R62 and R66. -/

namespace Sys2Proof

/-- Why the decoder gives no instruction: the families of R70, by name. -/
inductive Reject where
  /-- fewer than two bytes were given -/
  | tooShort
  /-- 0x0000..0x0FFF but for 00E0 and 00EE (R69) -/
  | family0
  /-- 5xyn with n ≠ 0 -/
  | family5
  /-- 8xyn with n in 8, 9, A, B, C, D, F -/
  | family8
  /-- 9xyn with n ≠ 0 -/
  | family9
  /-- Exkk with kk not 9E or A1 -/
  | familyE
  /-- Fxkk with kk not one of the nine -/
  | familyF
  deriving DecidableEq, Repr

/-! ### Fields (R61) -/

/-- `op[15:12]` -/
def fieldFam (op : Word) : BitVec 4 := op.extractLsb' 12 4
/-- `op[11:8]` -/
def fieldX (op : Word) : RegNum := (op.extractLsb' 8 4).toFin
/-- `op[7:4]` -/
def fieldY (op : Word) : RegNum := (op.extractLsb' 4 4).toFin
/-- `op[3:0]` as bits, the sub-opcode of families 5, 8 and 9 -/
def fieldSub (op : Word) : BitVec 4 := op.extractLsb' 0 4
/-- `op[3:0]` as the count n -/
def fieldN (op : Word) : Fin 16 := (op.extractLsb' 0 4).toFin
/-- `op[7:0]` -/
def fieldKK (op : Word) : Byte := op.extractLsb' 0 8
/-- `op[11:0]` -/
def fieldNNN (op : Word) : Addr12 := op.extractLsb' 0 12

/-! ### Decoding (R65) -/

/-- Family 0: two words, everything else rejected (R65 (a), R69). -/
def decodeFamily0 (op : Word) : Except Reject Instr :=
  match op with
  | 0x00E0#16 => .ok .cls
  | 0x00EE#16 => .ok .ret
  | _ => .error .family0

/-- Family 8 (R65 (e)). -/
def decodeFamily8 (op : Word) : Except Reject Instr :=
  match fieldSub op with
  | 0x0#4 => .ok (.ldReg (fieldX op) (fieldY op))
  | 0x1#4 => .ok (.orReg (fieldX op) (fieldY op))
  | 0x2#4 => .ok (.andReg (fieldX op) (fieldY op))
  | 0x3#4 => .ok (.xorReg (fieldX op) (fieldY op))
  | 0x4#4 => .ok (.addReg (fieldX op) (fieldY op))
  | 0x5#4 => .ok (.subReg (fieldX op) (fieldY op))
  | 0x6#4 => .ok (.shr (fieldX op) (fieldY op))
  | 0x7#4 => .ok (.subn (fieldX op) (fieldY op))
  | 0xE#4 => .ok (.shl (fieldX op) (fieldY op))
  | _ => .error .family8

/-- Family E (R65 (g)). -/
def decodeFamilyE (op : Word) : Except Reject Instr :=
  match fieldKK op with
  | 0x9E#8 => .ok (.skp (fieldX op))
  | 0xA1#8 => .ok (.sknp (fieldX op))
  | _ => .error .familyE

/-- Family F (R65 (h)). -/
def decodeFamilyF (op : Word) : Except Reject Instr :=
  match fieldKK op with
  | 0x07#8 => .ok (.ldVxDt (fieldX op))
  | 0x0A#8 => .ok (.ldVxK (fieldX op))
  | 0x15#8 => .ok (.ldDtVx (fieldX op))
  | 0x18#8 => .ok (.ldStVx (fieldX op))
  | 0x1E#8 => .ok (.addI (fieldX op))
  | 0x29#8 => .ok (.ldF (fieldX op))
  | 0x33#8 => .ok (.ldB (fieldX op))
  | 0x55#8 => .ok (.storeRegs (fieldX op))
  | 0x65#8 => .ok (.loadRegs (fieldX op))
  | _ => .error .familyF

/-- The decoder: a total function of the word and of nothing else (R60, R65). -/
def decode (op : Word) : Except Reject Instr :=
  match fieldFam op with
  | 0x0#4 => decodeFamily0 op
  | 0x1#4 => .ok (.jmp (fieldNNN op))
  | 0x2#4 => .ok (.call (fieldNNN op))
  | 0x3#4 => .ok (.seImm (fieldX op) (fieldKK op))
  | 0x4#4 => .ok (.sneImm (fieldX op) (fieldKK op))
  | 0x5#4 => if fieldSub op = 0x0#4 then .ok (.seReg (fieldX op) (fieldY op)) else .error .family5
  | 0x6#4 => .ok (.ldImm (fieldX op) (fieldKK op))
  | 0x7#4 => .ok (.addImm (fieldX op) (fieldKK op))
  | 0x8#4 => decodeFamily8 op
  | 0x9#4 => if fieldSub op = 0x0#4 then .ok (.sneReg (fieldX op) (fieldY op)) else .error .family9
  | 0xA#4 => .ok (.ldI (fieldNNN op))
  | 0xB#4 => .ok (.jmpV0 (fieldNNN op))
  | 0xC#4 => .ok (.rnd (fieldX op) (fieldKK op))
  | 0xD#4 => .ok (.drw (fieldX op) (fieldY op) (fieldN op))
  | 0xE#4 => decodeFamilyE op
  | _ => decodeFamilyF op

/-! ### Bytes: big-endian (20_memory R45, 30_encoding R60) -/

/-- The word of two bytes, the byte at the lower address first and most significant. -/
def wordOfBytes (hi lo : Byte) : Word := hi ++ lo

/-- The two bytes of a word as memory holds them, the one at the lower address first. -/
def bytesOfWord (op : Word) : List Byte := [op.extractLsb' 8 8, op.extractLsb' 0 8]

/-- Decode the instruction at the head of a list of bytes, and give back the rest. -/
def decodeBytes : List Byte → Except Reject (Instr × List Byte)
  | hi :: lo :: rest =>
    match decode (wordOfBytes hi lo) with
    | .ok i => .ok (i, rest)
    | .error r => .error r
  | _ => .error .tooShort

/-- The instruction the decoder reads from a row's bits as spec/opcode_table.json numbers them: one word, bit 0 its
least significant bit, laid out as memory holds it; bits above `nbits` are zero. -/
def decodeTableWord (nbits w : Nat) : Option Instr :=
  match decodeBytes (bytesOfWord (BitVec.ofNat 16 (w % 2 ^ nbits))) with
  | .ok (i, _) => some i
  | .error _ => none

/-! ### Encoding (R62, R66) -/

/-- Format NNN: `fam ++ nnn`. -/
def encodeNNN (fam : BitVec 4) (nnn : Addr12) : Word := fam ++ nnn
/-- Format XKK: `fam ++ x ++ kk`. -/
def encodeXKK (fam : BitVec 4) (x : RegNum) (kk : Byte) : Word := fam ++ (BitVec.ofFin x : BitVec 4) ++ kk
/-- Formats XYS and XYN: `fam ++ x ++ y ++ n`. -/
def encodeXYN (fam : BitVec 4) (x y : RegNum) (n : BitVec 4) : Word :=
  fam ++ (BitVec.ofFin x : BitVec 4) ++ (BitVec.ofFin y : BitVec 4) ++ n

/-- The word of an instruction (R66). Format XSS is XKK with the sub-opcode in the place of kk. -/
def encode : Instr → Word
  | .cls => 0x00E0#16
  | .ret => 0x00EE#16
  | .jmp nnn => encodeNNN 0x1#4 nnn
  | .call nnn => encodeNNN 0x2#4 nnn
  | .seImm x kk => encodeXKK 0x3#4 x kk
  | .sneImm x kk => encodeXKK 0x4#4 x kk
  | .seReg x y => encodeXYN 0x5#4 x y 0x0#4
  | .ldImm x kk => encodeXKK 0x6#4 x kk
  | .addImm x kk => encodeXKK 0x7#4 x kk
  | .ldReg x y => encodeXYN 0x8#4 x y 0x0#4
  | .orReg x y => encodeXYN 0x8#4 x y 0x1#4
  | .andReg x y => encodeXYN 0x8#4 x y 0x2#4
  | .xorReg x y => encodeXYN 0x8#4 x y 0x3#4
  | .addReg x y => encodeXYN 0x8#4 x y 0x4#4
  | .subReg x y => encodeXYN 0x8#4 x y 0x5#4
  | .shr x y => encodeXYN 0x8#4 x y 0x6#4
  | .subn x y => encodeXYN 0x8#4 x y 0x7#4
  | .shl x y => encodeXYN 0x8#4 x y 0xE#4
  | .sneReg x y => encodeXYN 0x9#4 x y 0x0#4
  | .ldI nnn => encodeNNN 0xA#4 nnn
  | .jmpV0 nnn => encodeNNN 0xB#4 nnn
  | .rnd x kk => encodeXKK 0xC#4 x kk
  | .drw x y n => encodeXYN 0xD#4 x y (BitVec.ofFin n)
  | .skp x => encodeXKK 0xE#4 x 0x9E#8
  | .sknp x => encodeXKK 0xE#4 x 0xA1#8
  | .ldVxDt x => encodeXKK 0xF#4 x 0x07#8
  | .ldVxK x => encodeXKK 0xF#4 x 0x0A#8
  | .ldDtVx x => encodeXKK 0xF#4 x 0x15#8
  | .ldStVx x => encodeXKK 0xF#4 x 0x18#8
  | .addI x => encodeXKK 0xF#4 x 0x1E#8
  | .ldF x => encodeXKK 0xF#4 x 0x29#8
  | .ldB x => encodeXKK 0xF#4 x 0x33#8
  | .storeRegs x => encodeXKK 0xF#4 x 0x55#8
  | .loadRegs x => encodeXKK 0xF#4 x 0x65#8

end Sys2Proof
end

