-- ==== Sys2Proof/Machine/State.lean ====
section
/-! DEFINITION. The machine's state as plain data: everything of 10_state, the configuration of 00_scope R6, and two
fields of the model's own (the draw counter and the environment's schedule). -/

namespace Sys2Proof.Machine

/-- The four fatal errors (60_exceptions R154), the kind that `status` records. Each is raised by `Machine.raise`,
which answers a NEXT state (R152), so no step of this machine ends in `Host.Outcome.fault` (log 1). -/
inductive Fault where
  /-- Raised by the fetch of any step with PC + 1 > 0xFFF, and by Dxyn, Fx33, Fx55, Fx65 when the last byte of their
  range is above 0xFFF (R151, R158). Safe: the effect is the spec's. -/
  | outOfBounds
  /-- Raised by the decode of any step (R155). Safe: the effect is the spec's. -/
  | invalidOpcode
  /-- Raised by 2nnn with SP = 16 (R156). Safe: the effect is the spec's. -/
  | stackOverflow
  /-- Raised by 00EE with SP = 0 (R157). Safe: the effect is the spec's. -/
  | stackUnderflow
  deriving DecidableEq, Repr

/-- Why the model gives an event no meaning. -/
inductive Refusal where
  /-- Raised by an arm of `exec` whose instruction has no meaning yet: none is left. Safe: it stops. -/
  | notModelled (mnemonic : String)
  /-- Raised by the event `reset(image)` with more than 3584 bytes: the spec refuses it (70_reset_and_hazards R181).
  Safe: it stops where the spec gives no meaning. -/
  | imageTooLong
  deriving DecidableEq, Repr

/-- `status` (10_state R27). -/
inductive Status where
  | running
  | halted (kind : Fault)
  deriving DecidableEq, Repr

/-- The four atomic events through which the core changes state (00_scope R4). -/
inductive Event where
  /-- one fetch-decode-execute cycle (R150) -/
  | step
  /-- one timer decrement (R160) -/
  | tick
  /-- replace the keypad latch: the keys that are down (R165) -/
  | setPressed (keys : List Key)
  /-- reset and load a program image (R180) -/
  | reset (image : List Byte)
  deriving DecidableEq, Repr

/-- The 4096-byte array, as the cells that differ from what an unlisted address reads as (`background`), addresses
rising: see `Memory.wf` and log 7. -/
abbrev Memory := List Host.Cell

/-- The 64 x 32 display: one row of 64 pixels for each r in 0..31; column c of a row is its bit c (log 6). It is read
through `Display.pixel` only. -/
abbrev Display := Vector (BitVec 64) 32

/-- The state of the machine. -/
structure State where
  /-- `V[0]`..`V[15]` (R10) -/
  v : Vector Byte 16
  /-- `I` (R16) -/
  i : Word
  /-- `PC`, between steps the address of the next instruction (R18) -/
  pc : Word
  /-- `SP`, the number of return addresses on the stack, 0..16 (R20, log 5) -/
  sp : Fin 17
  /-- `S[0]`..`S[15]` (R21) -/
  stack : Vector Word 16
  /-- `DT` (R22) -/
  dt : Byte
  /-- `ST` (R22) -/
  st : Byte
  /-- `Mem` (R23) -/
  mem : Memory
  /-- `D[r][c]` (R24) -/
  display : Display
  /-- `K[0]`..`K[15]`, the keypad latch (R26) -/
  keys : Vector Bool 16
  /-- `status` (R27) -/
  status : Status
  /-- configuration, not state of the spec (00_scope R6, log 2) -/
  quirks : Quirks
  /-- THE MODEL'S OWN: how many free bytes Cxkk has drawn (R113, log 3) -/
  draws : Nat
  /-- THE MODEL'S OWN: the events the environment issues next, first one first; when it is empty the environment
  issues `step` (R186, R187, log 4) -/
  schedule : List Event
  deriving DecidableEq, Repr

/-- The machine right after `reset` with the empty image (10_state R32, log 9), with the default parameters (R6), and
no event but `step` to come (log 4). Memory lists nothing: every address reads as its reset contents (log 7). -/
def State.reset : State where
  v := Vector.replicate 16 0x00#8
  i := 0x0000#16
  pc := 0x0200#16
  sp := 0
  stack := Vector.replicate 16 0x0000#16
  dt := 0x00#8
  st := 0x00#8
  mem := []
  display := Vector.replicate 32 0#64
  keys := Vector.replicate 16 false
  status := .running
  quirks := Quirks.default
  draws := 0
  schedule := []

end Sys2Proof.Machine
end

