-- ==== Sys2Proof/Machine/Memory.lean ====
section
/-! DEFINITION. Memory (20_memory): the font, what an unlisted address reads as, one byte read and written, and blocks
of bytes with the bound check of R44 made before anything is read or written. -/

namespace Sys2Proof.Machine

/-- The 80 font bytes of R49, five to a glyph, glyph 0 first. -/
def fontTable : List Byte :=
  [0xF0#8, 0x90#8, 0x90#8, 0x90#8, 0xF0#8] ++   -- 0
  [0x20#8, 0x60#8, 0x20#8, 0x20#8, 0x70#8] ++   -- 1
  [0xF0#8, 0x10#8, 0xF0#8, 0x80#8, 0xF0#8] ++   -- 2
  [0xF0#8, 0x10#8, 0xF0#8, 0x10#8, 0xF0#8] ++   -- 3
  [0x90#8, 0x90#8, 0xF0#8, 0x10#8, 0x10#8] ++   -- 4
  [0xF0#8, 0x80#8, 0xF0#8, 0x10#8, 0xF0#8] ++   -- 5
  [0xF0#8, 0x80#8, 0xF0#8, 0x90#8, 0xF0#8] ++   -- 6
  [0xF0#8, 0x10#8, 0x20#8, 0x40#8, 0x40#8] ++   -- 7
  [0xF0#8, 0x90#8, 0xF0#8, 0x90#8, 0xF0#8] ++   -- 8
  [0xF0#8, 0x90#8, 0xF0#8, 0x10#8, 0xF0#8] ++   -- 9
  [0xF0#8, 0x90#8, 0xF0#8, 0x90#8, 0x90#8] ++   -- A
  [0xE0#8, 0x90#8, 0xE0#8, 0x90#8, 0xE0#8] ++   -- B
  [0xF0#8, 0x80#8, 0x80#8, 0x80#8, 0xF0#8] ++   -- C
  [0xE0#8, 0x90#8, 0x90#8, 0x90#8, 0xE0#8] ++   -- D
  [0xF0#8, 0x80#8, 0xF0#8, 0x80#8, 0xF0#8] ++   -- E
  [0xF0#8, 0x80#8, 0xF0#8, 0x80#8, 0x80#8]      -- F

/-- What an address that memory does not list reads as: its contents after `reset` with the empty image, the font at
0x050..0x09F and 0x00 elsewhere (10_state R32, R48). -/
def background (a : Nat) : Byte :=
  if Config.fontBase ≤ a then fontTable.getD (a - Config.fontBase) 0x00#8 else 0x00#8

/-- The byte at an address. -/
def Memory.byteAt : Memory → Nat → Byte
  | [], a => background a
  | (k, b) :: m, a => if a = k then b else Memory.byteAt m a

/-- List the byte `b` at `a`, in its place in the rising order. -/
def Memory.insertCell (a : Nat) (b : Byte) : Memory → Memory
  | [] => [(a, b)]
  | (k, c) :: m =>
    if a < k then (a, b) :: (k, c) :: m
    else if a = k then (a, b) :: m
    else (k, c) :: Memory.insertCell a b m

/-- List nothing at `a`. -/
def Memory.eraseCell (a : Nat) : Memory → Memory
  | [] => []
  | (k, c) :: m => if a = k then Memory.eraseCell a m else (k, c) :: Memory.eraseCell a m

/-- `Mem[a] <- b` (R42), keeping the canonical form: writing what an unlisted address reads as lists nothing. -/
def Memory.write (m : Memory) (a : Nat) (b : Byte) : Memory :=
  if b = background a then m.eraseCell a else m.insertCell a b

/-- The canonical form: addresses in 0x000..0xFFF, strictly rising, no entry equal to what an unlisted address reads
as. -/
def Memory.wf : Memory → Bool
  | [] => true
  | (k, b) :: m =>
    decide (k < Config.memSize) && decide (b ≠ background k) && m.all (fun c => decide (k < c.1)) && Memory.wf m

/-- The range `a .. a + len - 1` lies in memory; an empty range is not checked (R43, R44). -/
def rangeOk (a len : Nat) : Bool := decide (len = 0) || decide (a + len - 1 ≤ 0xFFF)

/-- `len` bytes at ascending addresses from `a`. -/
def Memory.bytesFrom (m : Memory) (a : Nat) : Nat → List Byte
  | 0 => []
  | len + 1 => m.byteAt a :: Memory.bytesFrom m (a + 1) len

/-- The bytes stored at ascending addresses from `a`. -/
def Memory.storeFrom (m : Memory) (a : Nat) : List Byte → Memory
  | [] => m
  | b :: bs => Memory.storeFrom (m.write a b) (a + 1) bs

/-- `MemRead` of a block: none is OutOfBounds, and then nothing was read (R41, R44). -/
def Memory.readBlock (m : Memory) (a len : Nat) : Option (List Byte) :=
  if rangeOk a len then some (m.bytesFrom a len) else none

/-- `MemWrite` of a block: none is OutOfBounds, and then nothing was written (R42, R44). -/
def Memory.writeBlock (m : Memory) (a : Nat) (bs : List Byte) : Option Memory :=
  if rangeOk a bs.length then some (m.storeFrom a bs) else none

end Sys2Proof.Machine
end

