-- ==== Sys2Proof/Machine/Ops.lean ====
section
/-! DEFINITION. The named operations over the state: reads and updates, the ways an instruction ends (10_state R18,
40_control_flow R80, 41_load_and_alu R100), the stack, the fetch, taking a fatal error, and the events other than
`step`. -/

namespace Sys2Proof.Machine

/-- What a meaning, an event or a step answers. -/
abbrev Result := Host.Outcome State Fault Refusal

/-! ### Reads -/

/-- `V[x]` -/
def State.reg (s : State) (x : RegNum) : Byte := s.v[x.val]
/-- `S[j]` -/
def State.entry (s : State) (j : Fin 16) : Word := s.stack[j.val]
/-- `K[k]` -/
def State.key (s : State) (k : Key) : Bool := s.keys[k.val]
/-- `Mem[a]` -/
def State.byteAt (s : State) (a : Nat) : Byte := s.mem.byteAt a

/-! ### Updates -/

/-- `V[x] <- b` -/
def State.setReg (s : State) (x : RegNum) (b : Byte) : State := { s with v := s.v.set x.val b }
/-- `V[0..15] <- w` -/
def State.setRegs (s : State) (w : Vector Byte 16) : State := { s with v := w }
/-- `I <- a` -/
def State.setIndex (s : State) (a : Word) : State := { s with i := a }
/-- `PC <- a` -/
def State.setPc (s : State) (a : Word) : State := { s with pc := a }
/-- `DT <- b` -/
def State.setDelay (s : State) (b : Byte) : State := { s with dt := b }
/-- `ST <- b` -/
def State.setSound (s : State) (b : Byte) : State := { s with st := b }
/-- replace memory -/
def State.setMem (s : State) (m : Memory) : State := { s with mem := m }
/-- replace the display -/
def State.setDisplay (s : State) (d : Display) : State := { s with display := d }
/-- replace the keypad latch -/
def State.setKeys (s : State) (k : Vector Bool 16) : State := { s with keys := k }
/-- `status <- t` -/
def State.setStatus (s : State) (t : Status) : State := { s with status := t }
/-- one more free byte has been drawn -/
def State.countDraw (s : State) : State := { s with draws := s.draws + 1 }

/-! ### How an instruction ends -/

/-- `pc <- pc + 2` (R18, R80) -/
def State.advance (s : State) : State := s.setPc (s.pc + 2#16)
/-- `pc <- pc + 4` if the condition holds, `pc <- pc + 2` otherwise (R80) -/
def State.skipIf (s : State) (c : Bool) : State := s.setPc (if c then s.pc + 4#16 else s.pc + 2#16)
/-- `V[x] <- b`, on to the next instruction -/
def State.writeReg (s : State) (x : RegNum) (b : Byte) : State := (s.setReg x b).advance
/-- `V[x] <- b`, then `VF <- f`, on to the next instruction: the flag is the later write (R11, R100) -/
def State.writeRegFlag (s : State) (x : RegNum) (b f : Byte) : State := ((s.setReg x b).setReg 15 f).advance

/-! ### Fatal errors (60_exceptions R152) -/

/-- `raise Kind`: every state element keeps its value, PC too, and `status <- halted(Kind)`. The core has no other
exception mechanism and no return from one (R164): the only way out is `reset`, the operation `resetWith` below. -/
def raise (k : Fault) (s : State) : Result := .next (s.setStatus (.halted k))

/-! ### The stack (10_state R20, R21) -/

/-- Push a return address; none when 16 are stacked already. -/
def State.push (s : State) (a : Word) : Option State :=
  if h : s.sp.val < 16 then
    some { s with stack := s.stack.set s.sp.val a, sp := ⟨s.sp.val + 1, by omega⟩ }
  else none

/-- Pop a return address, leaving the entry's contents in place; none when the stack is empty. -/
def State.pop (s : State) : Option (Word × State) :=
  if h : 0 < s.sp.val then
    some (s.stack[s.sp.val - 1]'(by omega), { s with sp := ⟨s.sp.val - 1, by omega⟩ })
  else none

/-! ### The fetch (20_memory R45, 60_exceptions R151) -/

/-- The big-endian word at PC; none is OutOfBounds. -/
def State.fetch (s : State) : Option Word :=
  if s.pc.toNat + 1 > 0xFFF then none
  else some (wordOfBytes (s.byteAt s.pc.toNat) (s.byteAt (s.pc.toNat + 1)))

/-! ### The events other than `step` -/

/-- One count down, floored at 0 (R160). -/
def countDown (b : Byte) : Byte := if b = 0x00#8 then b else b - 0x01#8

/-- The event `tick` (R160): the same whether the core is running, waiting or halted. -/
def tick (s : State) : State := (s.setDelay (countDown s.dt)).setSound (countDown s.st)

/-- The latch that holds exactly the given keys (R165). -/
def latchOf (keys : List Key) : Vector Bool 16 := Vector.ofFn (fun k => keys.contains k)

/-- The event `set_pressed(keys)` (R165): all 16 bits are replaced. -/
def setPressed (keys : List Key) (s : State) : State := s.setKeys (latchOf keys)

/-- The event `reset(image)` (70_reset_and_hazards R180, R181): every state element of the spec at its reset value and
the image at 0x200. What is not state of the spec goes on: the parameters, the draw counter (a fresh draw after a
reset is a fresh draw) and the events still to come (log 10). -/
def resetWith (image : List Byte) (s : State) : Result :=
  if image.length ≤ Config.maxImage then
    .next { State.reset with
      mem := State.reset.mem.storeFrom Config.progBase image
      quirks := s.quirks
      draws := s.draws
      schedule := s.schedule }
  else .refused .imageTooLong

end Sys2Proof.Machine
end

