-- ==== Sys2Proof/Machine/Operands.lean ====
section
/-! DEFINITION. What the instructions read and compute from their operands beyond a plain register: the sources that a
parameter selects, key numbers, glyph addresses, decimal digits, register blocks. -/

namespace Sys2Proof.Machine

/-- The operand of 8xy6 and 8xyE (41_load_and_alu R109, R111). -/
def State.shiftOperand (s : State) (x y : RegNum) : Byte := if s.quirks.shiftUsesVy then s.reg y else s.reg x

/-- The offset register of Bnnn (30_encoding R64, 40_control_flow R84). -/
def State.jumpRegister (s : State) (nnn : Addr12) : RegNum :=
  if s.quirks.jumpUsesVx then (nnn.extractLsb' 8 4).toFin else 0

/-- A 12-bit address as the 16-bit value written to PC or I (R63). -/
def zext12 (nnn : Addr12) : Word := nnn.zeroExtend 16

/-- A byte as a 16-bit value. -/
def zext8 (b : Byte) : Word := b.zeroExtend 16

/-- `V[x] mod 16`, the key a skip tests (44_keypad_and_timers R140). -/
def keyNumber (b : Byte) : Key := Fin.ofNat 16 b.toNat

/-- The least key that is down, if any (R142). -/
def State.leastKey (s : State) : Option Key := (List.finRange 16).find? (fun k => s.key k)

/-- The address of the glyph of the low nibble (42_index_and_memory R123). -/
def glyphAddress (b : Byte) : Word := BitVec.ofNat 16 (Config.fontBase + 5 * (b.toNat % 16))

/-- Hundreds, tens, ones (R126). -/
def decimalDigits (b : Byte) : List Byte :=
  [BitVec.ofNat 8 (b.toNat / 100), BitVec.ofNat 8 (b.toNat / 10 % 10), BitVec.ofNat 8 (b.toNat % 10)]

/-- `V[0]`..`V[x]` in ascending order (R124). -/
def State.regBlock (s : State) (x : RegNum) : List Byte := s.v.toList.take (x.val + 1)

/-- `V[j]`, `V[j+1]`, ... `<-` the bytes (R125). -/
def fillRegs (w : Vector Byte 16) (j : Nat) : List Byte → Vector Byte 16
  | [] => w
  | b :: bs => fillRegs (w.setIfInBounds j b) (j + 1) bs

end Sys2Proof.Machine
end

