-- ==== Sys2Proof/Machine/Alu.lean ====
section
/-! DEFINITION. Register load, arithmetic, logic, shift and random (41_load_and_alu R100 to R114). Sources are read
from the state before the instruction, the result is written, then the flag (R100). -/

namespace Sys2Proof.Machine

/-- `LD Vx, kk` (R101). -/
def execLdImm (x : RegNum) (kk : Byte) (s : State) : Result := .next (s.writeReg x kk)

/-- `ADD Vx, kk` (R102): VF is not written on overflow. -/
def execAddImm (x : RegNum) (kk : Byte) (s : State) : Result := .next (s.writeReg x (s.reg x + kk))

/-- `LD Vx, Vy` (R103). -/
def execLdReg (x y : RegNum) (s : State) : Result := .next (s.writeReg x (s.reg y))

/-- `OR Vx, Vy` (R104): VF is not written. -/
def execOrReg (x y : RegNum) (s : State) : Result := .next (s.writeReg x (s.reg x ||| s.reg y))

/-- `AND Vx, Vy` (R105): VF is not written. -/
def execAndReg (x y : RegNum) (s : State) : Result := .next (s.writeReg x (s.reg x &&& s.reg y))

/-- `XOR Vx, Vy` (R106): VF is not written. -/
def execXorReg (x y : RegNum) (s : State) : Result := .next (s.writeReg x (s.reg x ^^^ s.reg y))

/-- `ADD Vx, Vy` (R107). -/
def execAddReg (x y : RegNum) (s : State) : Result :=
  .next (s.writeRegFlag x (s.reg x + s.reg y) (carryOut (s.reg x) (s.reg y)))

/-- `SUB Vx, Vy` (R108): V[x] is the minuend. -/
def execSubReg (x y : RegNum) (s : State) : Result :=
  .next (s.writeRegFlag x (s.reg x - s.reg y) (noBorrow (s.reg x) (s.reg y)))

/-- `SHR Vx, Vy` (R109): a zero enters at bit 7. -/
def execShr (x y : RegNum) (s : State) : Result :=
  .next (s.writeRegFlag x (s.shiftOperand x y >>> 1) (shiftedOutRight (s.shiftOperand x y)))

/-- `SUBN Vx, Vy` (R110): V[y] is the minuend. -/
def execSubn (x y : RegNum) (s : State) : Result :=
  .next (s.writeRegFlag x (s.reg y - s.reg x) (noBorrow (s.reg y) (s.reg x)))

/-- `SHL Vx, Vy` (R111): a zero enters at bit 0. -/
def execShl (x y : RegNum) (s : State) : Result :=
  .next (s.writeRegFlag x (s.shiftOperand x y <<< 1) (shiftedOutLeft (s.shiftOperand x y)))

/-- `RND Vx, kk` (R112): the free byte of this draw, masked with kk; the next draw takes another (R113, log 3). -/
def execRnd (x : RegNum) (kk : Byte) (s : State) : Result :=
  .next ((s.writeReg x (Config.freeByte s.draws &&& kk)).countDraw)

end Sys2Proof.Machine
end

