-- ==== Sys2Proof/Machine/Control.lean ====
section
/-! DEFINITION. Control transfer (40_control_flow R80 to R88): return, jump, call, jump with offset, and the skips on
registers and immediates. No target is checked when it is written to PC (R80). -/

namespace Sys2Proof.Machine

/-- `RET` (R81): the popped value is used as it is. -/
def execRet (s : State) : Result :=
  match s.pop with
  | none => raise .stackUnderflow s
  | some (a, t) => .next (t.setPc a)

/-- `JMP nnn` (R82). -/
def execJmp (nnn : Addr12) (s : State) : Result := .next (s.setPc (zext12 nnn))

/-- `CALL nnn` (R83): the address of the next instruction is pushed. -/
def execCall (nnn : Addr12) (s : State) : Result :=
  match s.push (s.pc + 2#16) with
  | none => raise .stackOverflow s
  | some t => .next (t.setPc (zext12 nnn))

/-- `JMP V0, nnn` (R84): the sum is not reduced modulo 4096. -/
def execJmpV0 (nnn : Addr12) (s : State) : Result :=
  .next (s.setPc (zext12 nnn + zext8 (s.reg (s.jumpRegister nnn))))

/-- `SE Vx, kk` (R85). -/
def execSeImm (x : RegNum) (kk : Byte) (s : State) : Result := .next (s.skipIf (s.reg x == kk))

/-- `SNE Vx, kk` (R86). -/
def execSneImm (x : RegNum) (kk : Byte) (s : State) : Result := .next (s.skipIf (s.reg x != kk))

/-- `SE Vx, Vy` (R87). -/
def execSeReg (x y : RegNum) (s : State) : Result := .next (s.skipIf (s.reg x == s.reg y))

/-- `SNE Vx, Vy` (R88). -/
def execSneReg (x y : RegNum) (s : State) : Result := .next (s.skipIf (s.reg x != s.reg y))

end Sys2Proof.Machine
end

