-- ==== Sys2Proof/Machine/Raster.lean ====
section
/-! DEFINITION. The display: one pixel read and flipped, the cleared display, and the XOR sprite rasteriser with its
collision bit (43_display R130 to R132). -/

namespace Sys2Proof.Machine

/-- `D[r][c]` (10_state R24). -/
def Display.pixel (d : Display) (r : Fin 32) (c : Fin 64) : Bool := d[r.val].getLsbD c.val

/-- `D[r][c] <- D[r][c] ^ 1` -/
def Display.flip (d : Display) (r : Fin 32) (c : Fin 64) : Display :=
  d.set r.val (d[r.val] ^^^ (1#64 <<< c.val))

/-- All 2048 pixels off (R130). -/
def Display.clear : Display := Vector.replicate 32 0#64

/-- Bit 7 - c of a sprite byte, at column (cx + c) mod 64: a 1 flips its pixel, and a pixel that was on is a hit. The
pair is the display and the hit so far. -/
def drawBit (b : Byte) (r : Fin 32) (cx c : Nat) (k : Display × Bool) : Display × Bool :=
  if b.getLsbD (7 - c) then
    (Display.flip k.1 r (Fin.ofNat 64 (cx + c)), k.2 || Display.pixel k.1 r (Fin.ofNat 64 (cx + c)))
  else k

/-- The first `n` columns of a sprite byte, c = 0 first. -/
def drawBits (b : Byte) (r : Fin 32) (cx : Nat) : Nat → Display × Bool → Display × Bool
  | 0, k => k
  | c + 1, k => drawBit b r cx c (drawBits b r cx c k)

/-- The sprite bytes on rows `row`, `row + 1`, ..., each taken mod 32. -/
def drawRows (cx : Nat) : Nat → List Byte → Display × Bool → Display × Bool
  | _, [], k => k
  | row, b :: bs, k => drawRows cx (row + 1) bs (drawBits b (Fin.ofNat 32 row) cx 8 k)

/-- The whole sprite at column cx, row cy: the new display, and whether a pixel went from on to off (R131). -/
def drawSprite (d : Display) (cx cy : Nat) (sprite : List Byte) : Display × Bool :=
  drawRows cx cy sprite (d, false)

end Sys2Proof.Machine
end

