-- ==== Sys2Proof/Machine/Draw.lean ====
section
/-! DEFINITION. The display instructions (43_display R130 to R132). -/

namespace Sys2Proof.Machine

/-- `CLS` (R130). -/
def execCls (s : State) : Result := .next (s.setDisplay Display.clear).advance

/-- `DRW Vx, Vy, n` (R131): the coordinates are read before VF is written, and VF is always written. -/
def execDrw (x y : RegNum) (n : Fin 16) (s : State) : Result :=
  match s.mem.readBlock s.i.toNat n.val with
  | none => raise .outOfBounds s
  | some sprite =>
    let k := drawSprite s.display (s.reg x).toNat (s.reg y).toNat sprite
    .next ((s.setDisplay k.1).setReg 15 (flagOf k.2)).advance

end Sys2Proof.Machine
end

