-- ==== Sys2Proof/Machine/Index.lean ====
section
/-! DEFINITION. The index register and memory (42_index_and_memory R120 to R126). Addresses are `I + j` without wrap;
a range that leaves memory raises OutOfBounds before anything is transferred; I is left unchanged by the transfers. -/

namespace Sys2Proof.Machine

/-- `LD I, nnn` (R121). -/
def execLdI (nnn : Addr12) (s : State) : Result := .next (s.setIndex (zext12 nnn)).advance

/-- `ADD I, Vx` (R122): the sum is modulo 65536; V[x] is read before VF is written; VF is written only under
`ADDI_SETS_VF`. -/
def execAddI (x : RegNum) (s : State) : Result :=
  let t := s.setIndex (s.i + zext8 (s.reg x))
  .next (if s.quirks.addiSetsVf then t.setReg 15 (indexOverflow s.i (s.reg x)) else t).advance

/-- `LD F, Vx` (R123): an address is computed, memory is not read. -/
def execLdF (x : RegNum) (s : State) : Result := .next (s.setIndex (glyphAddress (s.reg x))).advance

/-- `LD B, Vx` (R126). -/
def execLdB (x : RegNum) (s : State) : Result :=
  match s.mem.writeBlock s.i.toNat (decimalDigits (s.reg x)) with
  | none => raise .outOfBounds s
  | some m => .next (s.setMem m).advance

/-- `LD [I], Vx` (R124). -/
def execStoreRegs (x : RegNum) (s : State) : Result :=
  match s.mem.writeBlock s.i.toNat (s.regBlock x) with
  | none => raise .outOfBounds s
  | some m => .next (s.setMem m).advance

/-- `LD Vx, [I]` (R125). -/
def execLoadRegs (x : RegNum) (s : State) : Result :=
  match s.mem.readBlock s.i.toNat (x.val + 1) with
  | none => raise .outOfBounds s
  | some bs => .next (s.setRegs (fillRegs s.v 0 bs)).advance

end Sys2Proof.Machine
end

