-- ==== Sys2Proof/Machine/Keypad.lean ====
section
/-! DEFINITION. The keypad and timer instructions (44_keypad_and_timers R140 to R145). -/

namespace Sys2Proof.Machine

/-- `SKP Vx` (R140). -/
def execSkp (x : RegNum) (s : State) : Result := .next (s.skipIf (s.key (keyNumber (s.reg x))))

/-- `SKNP Vx` (R141). -/
def execSknp (x : RegNum) (s : State) : Result := .next (s.skipIf (!s.key (keyNumber (s.reg x))))

/-- `LD Vx, K` (R142), the key wait: with no key down nothing changes, PC neither. -/
def execLdVxK (x : RegNum) (s : State) : Result :=
  match s.leastKey with
  | none => .next s
  | some k => .next (s.writeReg x (BitVec.ofNat 8 k.val))

/-- `LD Vx, DT` (R143). -/
def execLdVxDt (x : RegNum) (s : State) : Result := .next (s.writeReg x s.dt)

/-- `LD DT, Vx` (R144). -/
def execLdDtVx (x : RegNum) (s : State) : Result := .next (s.setDelay (s.reg x)).advance

/-- `LD ST, Vx` (R145). -/
def execLdStVx (x : RegNum) (s : State) : Result := .next (s.setSound (s.reg x)).advance

end Sys2Proof.Machine
end

