-- ==== Sys2Proof/Machine/Cycle.lean ====
section
/-! DEFINITION. The event `step` (60_exceptions R150), what each event does (00_scope R4), the placing of an
instruction where the next step fetches it, and the outputs (R25, R28, R162). -/

namespace Sys2Proof.Machine

/-- The event `step`: nothing on a halted core (R153); else fetch, decode, execute, the first error met being the one
raised (R150, R159). -/
def stepCycle (s : State) : Result :=
  match s.status with
  | .halted _ => .next s
  | .running =>
    match s.fetch with
    | none => raise .outOfBounds s
    | some op =>
      match decode op with
      | .error _ => raise .invalidOpcode s
      | .ok i => exec i s

/-- One atomic event (R4, R186). -/
def applyEvent (e : Event) (s : State) : Result :=
  match e with
  | .step => stepCycle s
  | .tick => .next (tick s)
  | .setPressed keys => .next (setPressed keys s)
  | .reset image => resetWith image s

/-- The next event of the schedule happens, and `step` when none is scheduled (R187, log 4). -/
def nextEvent (s : State) : Result :=
  match s.schedule with
  | [] => stepCycle s
  | e :: rest => applyEvent e { s with schedule := rest }

/-- `s` made to run the given word as its next step: the two bytes stored at PC, the core running, no event before
that step, and PC at 0x200 if nothing can be fetched from where it is (log 8). -/
def placeWord (s : State) (nbits w : Nat) : State :=
  let pc : Word := if s.pc.toNat + 1 > 0xFFF then BitVec.ofNat 16 Config.progBase else s.pc
  { s with
    pc := pc
    mem := s.mem.storeFrom pc.toNat (bytesOfWord (BitVec.ofNat 16 (w % 2 ^ nbits)))
    status := .running
    schedule := [] }

/-! ### Outputs -/

/-- The output `display` (R25): the pixel at row r, column c. -/
def State.displayOut (s : State) (r : Fin 32) (c : Fin 64) : Bool := s.display.pixel r c

/-- The output `sound_active` (R162). -/
def State.soundActive (s : State) : Bool := decide (s.st.toNat > 0)

/-- The code of an error kind (R28, R154). -/
def faultCode : Fault → Nat
  | .outOfBounds => 1
  | .invalidOpcode => 2
  | .stackOverflow => 3
  | .stackUnderflow => 4

/-- The output `status` as a number (R28). -/
def State.statusCode (s : State) : Nat :=
  match s.status with
  | .running => 0
  | .halted k => faultCode k

end Sys2Proof.Machine
end

