-- ==== Sys2Proof/Machine/Step.lean ====
section
/-! DEFINITION. The machine's step: one atomic event of 00_scope R4, the next one the environment issues. With an empty
schedule, as after `State.reset`, it is the event `step` of 60_exceptions R150. -/

namespace Sys2Proof.Machine

/-- One event: the head of the schedule, or `step` when the schedule is empty. -/
def step (s : State) : Host.Outcome State Fault Refusal := nextEvent s

/-- `s` with the instruction stored where the next step fetches it, and nothing to happen before that step. -/
def State.withFetchWord (s : State) (nbits w : Nat) : State := placeWord s nbits w

end Sys2Proof.Machine
end

