-- ==== Sys2Proof/Safety.lean ====
section
/-! DEFINITION. What claims speak of: the invariant, the stable conditions of 70_reset_and_hazards R193, a safe run,
and the parts of the state with what it means that an instruction touches some of them only. -/

namespace Sys2Proof.Machine

/-- The invariant: memory is in canonical form, PC is at most 0x10FE (10_state R19) and every return address that the
stack holds is at most 0x1000 (40_control_flow R83). -/
def State.Inv (s : State) : Prop :=
  s.mem.wf = true ∧ s.pc.toNat ≤ 0x10FE ∧ ∀ j : Fin 16, (s.entry j).toNat ≤ 0x1000

/-- The next event is `step`, and it acts on `u`: nothing is scheduled and `u` is `s`, or `step` heads the schedule and
`u` is `s` without it (log 4). -/
def StepActsOn (s u : State) : Prop :=
  (s.schedule = [] ∧ u = s) ∨ ∃ rest, s.schedule = .step :: rest ∧ u = { s with schedule := rest }

/-- The instruction at PC is `i`: it can be fetched there and the word decodes to it. -/
def State.At (s : State) (i : Instr) : Prop := ∃ op, s.fetch = some op ∧ decode op = .ok i

/-- R193 (a): the instruction at PC is a jump to PC itself. -/
def State.Idle (s : State) : Prop := ∃ nnn, s.At (.jmp nnn) ∧ zext12 nnn = s.pc

/-- R193 (b): the instruction at PC is Fx0A and no key is down. -/
def State.Waiting (s : State) : Prop := (∃ x, s.At (.ldVxK x)) ∧ ∀ k, s.key k = false

/-- R193 (c): a fatal error was raised; never a successful end. -/
def State.Halted (s : State) : Prop := ∃ k, s.status = .halted k

/-- A safe run of n events: every one of them answers, and no fatal error is recorded on the way (60_exceptions R153). -/
def SafeRun (n : Nat) (s : State) : Prop :=
  ∀ k ≤ n, ∃ t, Host.Core.run Sys2Proof.core k s = .next t ∧ t.status = .running

/-- A part of the state that a statement about what is left unchanged can name. PC is not one: every instruction
writes it (10_state R18). -/
inductive Part where
  | reg (x : RegNum)
  | index
  | sp
  | entry (j : Fin 16)
  | delay
  | sound
  | byte (a : Nat)
  | pixel (r : Fin 32) (c : Fin 64)
  | key (k : Key)
  | status
  | draws
  deriving DecidableEq, Repr

/-- Nothing but PC and the touched parts differs: the other registers, the other bytes of memory, the other pixels and
so on are as before, and so are the configuration and the events still to come. -/
def OnlyTouches (touched : Part → Prop) (s t : State) : Prop :=
  (∀ x, ¬ touched (.reg x) → t.reg x = s.reg x) ∧
  (¬ touched .index → t.i = s.i) ∧
  (¬ touched .sp → t.sp = s.sp) ∧
  (∀ j, ¬ touched (.entry j) → t.entry j = s.entry j) ∧
  (¬ touched .delay → t.dt = s.dt) ∧
  (¬ touched .sound → t.st = s.st) ∧
  (∀ a, ¬ touched (.byte a) → t.byteAt a = s.byteAt a) ∧
  (∀ r c, ¬ touched (.pixel r c) → t.display.pixel r c = s.display.pixel r c) ∧
  (∀ k, ¬ touched (.key k) → t.key k = s.key k) ∧
  (¬ touched .status → t.status = s.status) ∧
  (¬ touched .draws → t.draws = s.draws) ∧
  t.quirks = s.quirks ∧ t.schedule = s.schedule

/-- The fatal error an instruction raises when it is executed, as the table of 60_exceptions R154 gives it: none for
every instruction that table does not name. -/
def raises (i : Instr) (s : State) : Option Fault :=
  match i with
  | .drw _ _ n => if n.val > 0 ∧ s.i.toNat + n.val - 1 > 0xFFF then some .outOfBounds else none
  | .ldB _ => if s.i.toNat + 2 > 0xFFF then some .outOfBounds else none
  | .storeRegs x | .loadRegs x => if s.i.toNat + x.val > 0xFFF then some .outOfBounds else none
  | .call _ => if s.sp = 16 then some .stackOverflow else none
  | .ret => if s.sp = 0 then some .stackUnderflow else none
  | .cls | .jmp _ | .seImm _ _ | .sneImm _ _ | .seReg _ _ | .ldImm _ _ | .addImm _ _ | .ldReg _ _ | .orReg _ _
  | .andReg _ _ | .xorReg _ _ | .addReg _ _ | .subReg _ _ | .shr _ _ | .subn _ _ | .shl _ _ | .sneReg _ _ | .ldI _
  | .jmpV0 _ | .rnd _ _ | .skp _ | .sknp _ | .ldVxDt _ | .ldVxK _ | .ldDtVx _ | .ldStVx _ | .addI _ | .ldF _ => none

/-- The instruction sets PC itself: jump, call, return, skip, and the key wait (10_state R18). -/
def setsPc (i : Instr) : Bool :=
  match i with
  | .ret | .jmp _ | .call _ | .jmpV0 _ | .seImm _ _ | .sneImm _ _ | .seReg _ _ | .sneReg _ _ | .skp _ | .sknp _
  | .ldVxK _ => true
  | .cls | .ldImm _ _ | .addImm _ _ | .ldReg _ _ | .orReg _ _ | .andReg _ _ | .xorReg _ _ | .addReg _ _ | .subReg _ _
  | .shr _ _ | .subn _ _ | .shl _ _ | .ldI _ | .rnd _ _ | .drw _ _ _ | .ldVxDt _ | .ldDtVx _ | .ldStVx _ | .addI _
  | .ldF _ | .ldB _ | .storeRegs _ | .loadRegs _ => false

/-- The instruction has V[r] among the registers that 10_state section 1 says it writes: its destination, VF where it
has a flag, V[0]..V[x] for Fx65. -/
def mayWriteReg (i : Instr) (s : State) (r : RegNum) : Prop :=
  match i with
  | .ldImm x _ | .addImm x _ | .ldReg x _ | .orReg x _ | .andReg x _ | .xorReg x _ | .rnd x _ | .ldVxDt x | .ldVxK x =>
    r = x
  | .addReg x _ | .subReg x _ | .shr x _ | .subn x _ | .shl x _ => r = x ∨ r = 15
  | .drw _ _ _ => r = 15
  | .addI _ => r = 15 ∧ s.quirks.addiSetsVf = true
  | .loadRegs x => r ≤ x
  | .cls | .ret | .jmp _ | .call _ | .seImm _ _ | .sneImm _ _ | .seReg _ _ | .sneReg _ _ | .ldI _ | .jmpV0 _ | .skp _
  | .sknp _ | .ldDtVx _ | .ldStVx _ | .ldF _ | .ldB _ | .storeRegs _ => False

/-- The sprite of Dxyn has a 1 on the pixel at row r, column c: bit 7 - k of its byte j, with both coordinates taken
modulo the grid (43_display R131). -/
def SpriteBit (s : State) (x y : RegNum) (n : Fin 16) (r : Fin 32) (c : Fin 64) : Prop :=
  ∃ j < n.val, ∃ k < 8, r.val = ((s.reg y).toNat + j) % 32 ∧ c.val = ((s.reg x).toNat + k) % 64 ∧
    (s.byteAt (s.i.toNat + j)).getLsbD (7 - k) = true

/-- Two states that differ at most in the contents of popped stack entries, those at SP and above (10_state R21). -/
def SameButResidue (s t : State) : Prop :=
  t = { s with stack := t.stack } ∧ ∀ j : Fin 16, j.val < s.sp.val → t.entry j = s.entry j

end Sys2Proof.Machine
end

