-- ==== Sys2Proof/Certificates/Slice0/Obligations.lean ====
section
/-! DEFINITION. The statements for the provers. Each docstring names the rule of spec/ it formalises, and the mark of
the spec (or the entry of the assumption log) that a clause rests on where the rule is not the source's plain word. A
statement about a free value or about the parameters holds for every value of them. -/

open Sys2Proof Sys2Proof.Machine

/-! ### Encoding -/

/-- Words of every family 0 to F decode to the instructions they stand for, and a word of each of the six families that
have invalid words does not decode (95_test_vectors section 2.1, 30_encoding R66; field positions are the spec's general knowledge, log 12). -/
def Obligations.SampleWordsDecode : Prop :=
  decode 0x00E0#16 = .ok .cls ∧ decode 0x00EE#16 = .ok .ret ∧ decode 0x1ABC#16 = .ok (.jmp 0xABC#12) ∧
  decode 0x2FFF#16 = .ok (.call 0xFFF#12) ∧ decode 0x3A7F#16 = .ok (.seImm 10 0x7F#8) ∧
  decode 0x4311#16 = .ok (.sneImm 3 0x11#8) ∧ decode 0x5AB0#16 = .ok (.seReg 10 11) ∧
  decode 0x6005#16 = .ok (.ldImm 0 0x05#8) ∧ decode 0x71FF#16 = .ok (.addImm 1 0xFF#8) ∧
  decode 0x8AB7#16 = .ok (.subn 10 11) ∧ decode 0x9AB0#16 = .ok (.sneReg 10 11) ∧
  decode 0xA300#16 = .ok (.ldI 0x300#12) ∧ decode 0xBFFF#16 = .ok (.jmpV0 0xFFF#12) ∧
  decode 0xC00F#16 = .ok (.rnd 0 0x0F#8) ∧ decode 0xD12F#16 = .ok (.drw 1 2 15) ∧ decode 0xEFA1#16 = .ok (.sknp 15) ∧ decode 0xF365#16 = .ok (.loadRegs 3) ∧
  decode 0x0000#16 = .error .family0 ∧ decode 0x5AB1#16 = .error .family5 ∧ decode 0x8AB8#16 = .error .family8 ∧
  decode 0x9ABF#16 = .error .family9 ∧ decode 0xE09F#16 = .error .familyE ∧ decode 0xF075#16 = .error .familyF

/-- Decode and encode agree: every instruction is well formed, and its word decodes to it, with every operand at every
value (30_encoding R61 to R66, whose field positions are the spec's general knowledge, log 12). -/
def Obligations.DecodeOfEncodeIsTheInstruction : Prop :=
  ∀ i : Instr, i.wellFormed = true ∧ decode (encode i) = .ok i

/-- No word has a second meaning: a word that decodes is the word of its instruction, so no bit of it was ignored
(30_encoding section 6: "a bit that the table fixes must have the fixed value"). -/
def Obligations.DecodedWordIsTheEncoding : Prop :=
  ∀ (op : Word) (i : Instr), decode op = .ok i → encode i = op

/-- The decoding procedure accepts exactly the words of the mask and match table, and reads an instruction of the row
that accepts the word (30_encoding R65 "Equivalently", a derivation the spec marks as its own). -/
def Obligations.DecoderAcceptsExactlyTheTable : Prop :=
  ∀ op : Word, ((∃ i, decode op = .ok i) ↔ wordWellFormed op = true) ∧
    ∀ i, decode op = .ok i → i.row.accepts op = true

/-- At most one row of the table accepts a word (30_encoding R65, a derivation the spec marks as its own). -/
def Obligations.TableRowsAreDisjoint : Prop :=
  opcodeTable.length = 34 ∧
  ∀ (op : Word) (j k : Fin 34), (opcodeTable.getD j.val ⟨0, 1⟩).accepts op = true →
    (opcodeTable.getD k.val ⟨0, 1⟩).accepts op = true → j = k

/-! ### The step, the fetch, fatal errors -/

/-- The event `step` (R150), scheduled or not, its four ways in order: a halted core does nothing; a fetch outside memory raises OutOfBounds; a
word that does not decode raises InvalidOpcode; otherwise the decoded instruction is executed. -/
def Obligations.StepRunsTheDecodedInstruction : Prop :=
  ∀ s u : State, StepActsOn s u →
    (∀ k, u.status = .halted k → step s = .next u) ∧
    (u.status = .running → 0xFFF < u.pc.toNat + 1 → step s = raise .outOfBounds u) ∧
    (u.status = .running → u.pc.toNat + 1 ≤ 0xFFF →
      let op := wordOfBytes (u.byteAt u.pc.toNat) (u.byteAt (u.pc.toNat + 1))
      (∀ r, decode op = .error r → step s = raise .invalidOpcode u) ∧
      (∀ i, decode op = .ok i → step s = exec i u))

/-- The fetch reads the big-endian word at PC, even or odd, and fails exactly when PC + 1 is above 0xFFF (R45, R151;
that an odd PC is fetched from is the spec's decision D15, log 12). -/
def Obligations.FetchIsBigEndianAndBounded : Prop :=
  ∀ s : State,
    (s.pc.toNat + 1 ≤ 0xFFF → ∃ op, s.fetch = some op ∧
      op.toNat = (s.byteAt s.pc.toNat).toNat * 256 + (s.byteAt (s.pc.toNat + 1)).toNat) ∧
    (s.pc.toNat + 1 > 0xFFF → s.fetch = none)

/-- A step whose PC + 1 is above 0xFFF raises OutOfBounds (60_exceptions R151); from 0xFFE and below there is a word to
fetch. That the status is all that changes, and PC stays the out-of-range value, is R152, the spec's decision D17
(log 1). -/
def Obligations.FetchOutsideMemoryHalts : Prop :=
  ∀ s u : State, StepActsOn s u →
    (u.status = .running → u.pc.toNat ≥ 0xFFF →
      ∃ t, step s = .next t ∧ t.status = .halted .outOfBounds ∧ t.pc = u.pc ∧ OnlyTouches (· = .status) u t) ∧
    (u.pc.toNat ≤ 0xFFE → ∃ op, u.fetch = some op)

/-- Executing a word that matches no row of the table raises InvalidOpcode (30_encoding R68), and PC stays at it
(60_exceptions R155). That nothing but the status changes is R152, the spec's decision D17 (log 1). -/
def Obligations.UnlistedWordHalts : Prop :=
  ∀ (s u : State) (op : Word), StepActsOn s u → u.status = .running → u.fetch = some op →
    (∀ r ∈ opcodeTable, r.accepts op = false) →
    ∃ t, step s = .next t ∧ t.status = .halted .invalidOpcode ∧ t.pc = u.pc ∧ OnlyTouches (· = .status) u t

/-- The error table (60_exceptions section 2): an instruction raises exactly the error its row names, under exactly
its condition, and then nothing but the status changes (precise errors are the spec's decision D17, log 1); every
other instruction, and every one whose condition fails, answers a next state with the status as it was. -/
def Obligations.ErrorsAreRaisedExactlyAsTabled : Prop :=
  ∀ (i : Instr) (s : State),
    (∀ k, raises i s = some k → exec i s = .next { s with status := .halted k }) ∧
    (raises i s = none → ∃ t, exec i s = .next t ∧ t.status = s.status)

/-- A reset with an image of more than 3584 bytes is refused, and every other event answers a next state (60_exceptions
R152, 70_reset_and_hazards R181; the spec's decisions D17 and D19, logs 1 and 12). -/
def Obligations.EveryEventButALongResetAnswers : Prop :=
  ∀ s : State,
    (∀ image rest, s.schedule = .reset image :: rest → image.length > 3584 → step s = .refused .imageTooLong) ∧
    ((∀ image rest, s.schedule = .reset image :: rest → image.length ≤ 3584) → ∃ t, step s = .next t)

/-- A halted core ignores `step`; `tick` and `set_pressed` still act on it and leave it halted (60_exceptions section
2, the spec's decision D18, log 12). -/
def Obligations.HaltedCoreIgnoresSteps : Prop :=
  ∀ (s : State) (k : Fault), s.status = .halted k →
    (s.schedule = [] → step s = .next s) ∧
    (∀ rest, s.schedule = .step :: rest → step s = .next { s with schedule := rest }) ∧
    (∀ rest, s.schedule = .tick :: rest → ∃ t, step s = .next t ∧ t.status = .halted k ∧
      t.dt.toNat = s.dt.toNat - 1 ∧ t.st.toNat = s.st.toNat - 1) ∧
    (∀ keys rest, s.schedule = .setPressed keys :: rest → ∃ t, step s = .next t ∧ t.status = .halted k ∧
      ∀ j, t.key j = true ↔ j ∈ keys)

/-! ### Events and reset -/

/-- `tick`: each timer is decremented iff it is not zero, and nothing else changes (60_exceptions section 5; that the
status does not matter is the spec's decision D18, log 12). -/
def Obligations.TickDecrementsEachTimer : Prop :=
  ∀ (s : State) (rest : List Event), s.schedule = .tick :: rest →
    ∃ t, step s = .next t ∧
      (s.dt = 0 → t.dt = 0) ∧ (s.dt ≠ 0 → t.dt.toNat + 1 = s.dt.toNat) ∧
      (s.st = 0 → t.st = 0) ∧ (s.st ≠ 0 → t.st.toNat + 1 = s.st.toNat) ∧
      t.pc = s.pc ∧ OnlyTouches (fun p => p = .delay ∨ p = .sound) { s with schedule := rest } t

/-- After k ticks and nothing else, each timer is max(start - k, 0) (60_exceptions R161, "In general, after k ticks"). -/
def Obligations.TicksCountDownToZero : Prop :=
  ∀ (k : Nat) (s : State), s.schedule = List.replicate k .tick →
    ∃ t, Host.Core.run Sys2Proof.core k s = .next t ∧
      t.dt.toNat = max (s.dt.toNat - k) 0 ∧ t.st.toNat = max (s.st.toNat - k) 0 ∧ t.schedule = [] ∧
      t = { s with dt := t.dt, st := t.st, schedule := t.schedule }

/-- `set_pressed(keys)` replaces all 16 latch bits at once and changes nothing else, whatever the status
(60_exceptions section 6; the 16-bit latch is the spec's decision D27, log 12). -/
def Obligations.SetPressedReplacesTheLatch : Prop :=
  ∀ (s : State) (keys : List Key) (rest : List Event), s.schedule = .setPressed keys :: rest →
    ∃ t, step s = .next t ∧ (∀ k, t.key k = decide (k ∈ keys)) ∧ t.pc = s.pc ∧
      OnlyTouches (fun p => ∃ k, p = .key k) { s with schedule := rest } t

/-- `reset(image)` with at most 3584 bytes, from any state: every state element of the spec at its reset value, the
80 font bytes at 0x050, the image at 0x200, zero elsewhere (10_state R32, which the spec derives from its decision D19,
and 20_memory R49, whose bytes are its general knowledge, log 12). The last clause is the model's choice (log 10): the parameters, the
draw counter and the events still to come go on. -/
def Obligations.ResetReinitialisesEverything : Prop :=
  ∀ (s : State) (image : List Byte) (rest : List Event), s.schedule = .reset image :: rest → image.length ≤ 3584 →
    ∃ t, step s = .next t ∧
      (∀ r, t.reg r = 0) ∧ t.i = 0 ∧ t.pc = 0x0200#16 ∧ t.sp = 0 ∧ (∀ j, t.entry j = 0) ∧ t.dt = 0 ∧ t.st = 0 ∧
      (∀ j < 80, t.byteAt (0x050 + j) =
        ([0xF0#8, 0x90#8, 0x90#8, 0x90#8, 0xF0#8, 0x20#8, 0x60#8, 0x20#8, 0x20#8, 0x70#8,
          0xF0#8, 0x10#8, 0xF0#8, 0x80#8, 0xF0#8, 0xF0#8, 0x10#8, 0xF0#8, 0x10#8, 0xF0#8] ++
        [0x90#8, 0x90#8, 0xF0#8, 0x10#8, 0x10#8, 0xF0#8, 0x80#8, 0xF0#8, 0x10#8, 0xF0#8,
          0xF0#8, 0x80#8, 0xF0#8, 0x90#8, 0xF0#8, 0xF0#8, 0x10#8, 0x20#8, 0x40#8, 0x40#8] ++
        [0xF0#8, 0x90#8, 0xF0#8, 0x90#8, 0xF0#8, 0xF0#8, 0x90#8, 0xF0#8, 0x10#8, 0xF0#8,
          0xF0#8, 0x90#8, 0xF0#8, 0x90#8, 0x90#8, 0xE0#8, 0x90#8, 0xE0#8, 0x90#8, 0xE0#8] ++
        [0xF0#8, 0x80#8, 0x80#8, 0x80#8, 0xF0#8, 0xE0#8, 0x90#8, 0x90#8, 0x90#8, 0xE0#8,
          0xF0#8, 0x80#8, 0xF0#8, 0x80#8, 0xF0#8, 0xF0#8, 0x80#8, 0xF0#8, 0x80#8, 0x80#8]).getD j 0) ∧
      (∀ j < image.length, t.byteAt (0x200 + j) = image.getD j 0) ∧
      (∀ a, a < 0x050 ∨ 0x0A0 ≤ a ∧ a < 0x200 ∨ 0x200 + image.length ≤ a → t.byteAt a = 0) ∧
      (∀ r c, t.displayOut r c = false) ∧ (∀ k, t.key k = false) ∧ t.status = .running ∧ t.soundActive = false ∧
      t.quirks = s.quirks ∧ t.draws = s.draws ∧ t.schedule = rest

/-- The state after reset as the host runs it: the values of 10_state R32 with the empty image (log 9); the bytes of
`fontTable` stand in ResetReinitialisesEverything. The last
clause is the model's choice: the parameters at the defaults of 00_scope R6, no draw taken, no event scheduled (logs
2, 3 and 4). -/
def Obligations.ResetStateHasTheTabledValues : Prop :=
  (∀ r, State.reset.reg r = 0) ∧ State.reset.i = 0 ∧ State.reset.pc = 0x0200#16 ∧ State.reset.sp = 0 ∧
  (∀ j, State.reset.entry j = 0) ∧ State.reset.dt = 0 ∧ State.reset.st = 0 ∧
  (∀ j < 80, State.reset.byteAt (0x050 + j) = fontTable.getD j 0) ∧
  (∀ a, a < 0x050 ∨ 0x0A0 ≤ a → State.reset.byteAt a = 0) ∧
  (∀ r c, State.reset.displayOut r c = false) ∧ (∀ k, State.reset.key k = false) ∧ State.reset.statusCode = 0 ∧
  State.reset.soundActive = false ∧
  (State.reset.quirks = Quirks.default ∧ State.reset.draws = 0 ∧ State.reset.schedule = [])

/-- A word placed by `withFetchWord` is the one the very next step runs, from any state (log 8). -/
def Obligations.PlacedWordRunsNext : Prop :=
  ∀ (s : State) (w : Nat) (i : Instr), decodeTableWord 16 w = some i →
    step (s.withFetchWord 16 w) = exec i (s.withFetchWord 16 w)

/-! ### Control transfer -/

/-- `RET` (R81), the word 0000 0000 1110 1110: the top of the stack goes to PC and SP counts down, the popped entry
stays; with an empty stack StackUnderflow is raised, nothing changes and PC stays at the RET. -/
def Obligations.ReturnPopsIntoPc : Prop :=
  decode 0b0000000011101110#16 = .ok .ret ∧ ∀ s : State,
    (∀ j : Fin 16, s.sp.val = j.val + 1 →
      ∃ t, exec .ret s = .next t ∧ t.pc = s.entry j ∧ t.sp.val = j.val ∧ OnlyTouches (· = .sp) s t) ∧
    (s.sp = 0 → ∃ t, exec .ret s = .next t ∧ t.status = .halted .stackUnderflow ∧ t.pc = s.pc ∧
      OnlyTouches (· = .status) s t)

/-- `CALL nnn` (R83, R156), the word 0010 nnn: the address of the next instruction is pushed, SP counts up and PC is
nnn; with 16 entries stacked StackOverflow is raised, nothing is pushed and PC stays at the CALL. -/
def Obligations.CallPushesTheReturnAddress : Prop :=
  ∀ (nnn : Addr12) (s : State), decode (0b0010#4 ++ nnn) = .ok (.call nnn) ∧
    (∀ j : Fin 16, s.sp.val = j.val →
      ∃ t, exec (.call nnn) s = .next t ∧ t.pc.toNat = nnn.toNat ∧ t.entry j = s.pc + 2 ∧ t.sp.val = j.val + 1 ∧
        OnlyTouches (fun p => p = .sp ∨ p = .entry j) s t) ∧
    (s.sp = 16 → ∃ t, exec (.call nnn) s = .next t ∧ t.status = .halted .stackOverflow ∧ t.pc = s.pc ∧
      OnlyTouches (· = .status) s t)

/-- "`CALL nnn` followed immediately by `RET` restores `PC` to its pre-call value plus 2" (40_control_flow section 2),
and SP; the entry the call wrote is all that is left of it. -/
def Obligations.CallThenReturnRestoresPc : Prop :=
  ∀ (nnn : Addr12) (s : State), s.sp.val < 16 →
    ∃ t u, exec (.call nnn) s = .next t ∧ exec .ret t = .next u ∧ u.pc = s.pc + 2 ∧ u.sp = s.sp ∧
      OnlyTouches (fun p => ∃ j : Fin 16, p = .entry j ∧ j.val = s.sp.val) s u

/-- R157: StackUnderflow is raised by 00EE with SP = 0, and so a program whose first instruction is 00EE faults: reset
to it, in any state, the first `step` halts the core. -/
def Obligations.FirstReturnUnderflows : Prop :=
  (∀ s : State, s.sp = 0 → exec .ret s = raise .stackUnderflow s) ∧
  ∀ (s : State) (image : List Byte) (rest : List Event), image.length + 2 ≤ 3584 →
    s.schedule = .reset (0x00#8 :: 0xEE#8 :: image) :: .step :: rest →
    ∃ t, Host.Core.run Sys2Proof.core 2 s = .next t ∧ t.status = .halted .stackUnderflow ∧ t.pc = 0x0200#16

/-- `JMP nnn` sets PC to nnn and touches nothing else (40_control_flow section 2; the general rule is the spec's
general knowledge, log 12). -/
def Obligations.JumpSetsPc : Prop :=
  ∀ (nnn : Addr12) (s : State),
    ∃ t, exec (.jmp nnn) s = .next t ∧ t.pc.toNat = nnn.toNat ∧ OnlyTouches (fun _ => False) s t

/-- `JMP V0, nnn` sets PC to the unreduced sum of nnn and V[0], or V[nnn[11:8]] under JUMP_USES_VX (40_control_flow
section 2; the spec's general knowledge and its decision D6, log 12). -/
def Obligations.JumpWithOffsetAddsTheSelectedRegister : Prop :=
  ∀ (nnn : Addr12) (s : State) (r : RegNum),
    r.val = (if s.quirks.jumpUsesVx then nnn.toNat / 256 else 0) →
    ∃ t, exec (.jmpV0 nnn) s = .next t ∧ t.pc.toNat = nnn.toNat + (s.reg r).toNat ∧ OnlyTouches (fun _ => False) s t

/-- The skips on registers and immediates: PC + 4 if the condition holds, PC + 2 otherwise, nothing else touched
(40_control_flow section 3; which condition each tests is the spec's general knowledge, log 12). -/
def Obligations.SkipsAdvanceByFourOrTwo : Prop :=
  ∀ (x y : RegNum) (kk : Byte) (s : State),
    (∃ t, exec (.seImm x kk) s = .next t ∧ OnlyTouches (fun _ => False) s t ∧
      t.pc = s.pc + (if s.reg x = kk then 4 else 2)) ∧
    (∃ t, exec (.sneImm x kk) s = .next t ∧ OnlyTouches (fun _ => False) s t ∧
      t.pc = s.pc + (if s.reg x = kk then 2 else 4)) ∧
    (∃ t, exec (.seReg x y) s = .next t ∧ OnlyTouches (fun _ => False) s t ∧
      t.pc = s.pc + (if s.reg x = s.reg y then 4 else 2)) ∧
    (∃ t, exec (.sneReg x y) s = .next t ∧ OnlyTouches (fun _ => False) s t ∧
      t.pc = s.pc + (if s.reg x = s.reg y then 2 else 4))

/-- R18: unless the instruction sets PC itself (jump, call, return, skip, the key wait), PC advances by 2. -/
def Obligations.OtherInstructionsAdvanceByTwo : Prop :=
  ∀ (i : Instr) (s : State), setsPc i = false → raises i s = none →
    ∃ t, exec i s = .next t ∧ t.pc = s.pc + 2

/-! ### Load and ALU -/

/-- The instructions that write V[x] and no flag: the value, PC + 2, and nothing else touched, VF neither unless x =
15 (41_load_and_alu sections 2 and 3; the spec's general knowledge and its decision D8, log 12). -/
def Obligations.PlainRegisterWrites : Prop :=
  ∀ (x y : RegNum) (kk : Byte) (s : State) (i : Instr) (b : Byte),
    (i, b) ∈ [(Instr.ldImm x kk, kk), (.addImm x kk, BitVec.ofNat 8 (((s.reg x).toNat + kk.toNat) % 256)),
      (.ldReg x y, s.reg y), (.orReg x y, s.reg x ||| s.reg y), (.andReg x y, s.reg x &&& s.reg y),
      (.xorReg x y, s.reg x ^^^ s.reg y)] →
    ∃ t, exec i s = .next t ∧ t.reg x = b ∧ t.pc = s.pc + 2 ∧ OnlyTouches (· = .reg x) s t

/-- `ADD Vx, Vy` (R107): the sum modulo 256 in V[x], then VF = 1 iff the exact sum is above 255; for x = 15 the flag
is what VF holds (the spec's decision D7, log 12). -/
def Obligations.AddRegistersSetsSumAndCarry : Prop :=
  ∀ (x y : RegNum) (s : State), ∃ t, exec (.addReg x y) s = .next t ∧
    (x ≠ 15 → (t.reg x).toNat = ((s.reg x).toNat + (s.reg y).toNat) % 256) ∧
    t.reg 15 = (if (s.reg x).toNat + (s.reg y).toNat > 255 then 1 else 0) ∧
    t.pc = s.pc + 2 ∧ OnlyTouches (fun p => p = .reg x ∨ p = .reg 15) s t

/-- `SUB Vx, Vy` (R108): a - b, plus 256 if a < b, in V[x], then VF = 1 iff a >= b; for x = 15 the flag is what VF
holds (the spec's decision D7, log 12). -/
def Obligations.SubtractSetsDifferenceAndNoBorrow : Prop :=
  ∀ (x y : RegNum) (s : State), ∃ t, exec (.subReg x y) s = .next t ∧
    (x ≠ 15 → ((t.reg x).toNat : Int) = (((s.reg x).toNat : Int) - (s.reg y).toNat) % 256) ∧
    t.reg 15 = (if (s.reg x).toNat ≥ (s.reg y).toNat then 1 else 0) ∧
    t.pc = s.pc + 2 ∧ OnlyTouches (fun p => p = .reg x ∨ p = .reg 15) s t

/-- `SUBN Vx, Vy`: V[y] is the minuend (41_load_and_alu section 3; the operand order is the spec's general knowledge,
log 12). -/
def Obligations.ReverseSubtractSetsDifferenceAndNoBorrow : Prop :=
  ∀ (x y : RegNum) (s : State), ∃ t, exec (.subn x y) s = .next t ∧
    (x ≠ 15 → ((t.reg x).toNat : Int) = (((s.reg y).toNat : Int) - (s.reg x).toNat) % 256) ∧
    t.reg 15 = (if (s.reg y).toNat ≥ (s.reg x).toNat then 1 else 0) ∧
    t.pc = s.pc + 2 ∧ OnlyTouches (fun p => p = .reg x ∨ p = .reg 15) s t

/-- The shifts of the operand the parameter selects: half of it, or twice it modulo 256, in V[x], then the bit shifted
out in VF; V[y] plays no part when SHIFT_USES_VY is false (41_load_and_alu section 3; the directions are the spec's
general knowledge, the parameter its decision D4, logs 2 and 12). -/
def Obligations.ShiftsMoveOneBitIntoVf : Prop :=
  ∀ (x y : RegNum) (s : State) (b : Byte), b = (if s.quirks.shiftUsesVy then s.reg y else s.reg x) →
    (∃ t, exec (.shr x y) s = .next t ∧ (x ≠ 15 → (t.reg x).toNat = b.toNat / 2) ∧ (t.reg 15).toNat = b.toNat % 2 ∧
      t.pc = s.pc + 2 ∧ OnlyTouches (fun p => p = .reg x ∨ p = .reg 15) s t) ∧
    (∃ t, exec (.shl x y) s = .next t ∧ (x ≠ 15 → (t.reg x).toNat = b.toNat * 2 % 256) ∧
      (t.reg 15).toNat = b.toNat / 128 ∧
      t.pc = s.pc + 2 ∧ OnlyTouches (fun p => p = .reg x ∨ p = .reg 15) s t)

/-- `RND Vx, kk`: the free byte of this draw ANDed with kk, so no bit that is 0 in kk is set, and the next draw is
another one (41_load_and_alu section 4, the spec's decision D12; the draw counter is the model's own, log 3). -/
def Obligations.RandomMasksAFreshFreeByte : Prop :=
  ∀ (x : RegNum) (kk : Byte) (s : State), ∃ t, exec (.rnd x kk) s = .next t ∧
    t.reg x = Config.freeByte s.draws &&& kk ∧ (∀ k, kk.getLsbD k = false → (t.reg x).getLsbD k = false) ∧
    t.draws = s.draws + 1 ∧ t.pc = s.pc + 2 ∧ OnlyTouches (fun p => p = .reg x ∨ p = .draws) s t

/-! ### Index register and memory -/

/-- `LD I, nnn` and `LD F, Vx`: I gets the address, or the address of the glyph of the low nibble of V[x], and nothing
else is touched (42_index_and_memory section 2; the spec's general knowledge and its decision D10, log 12). -/
def Obligations.IndexLoads : Prop :=
  ∀ (nnn : Addr12) (x : RegNum) (s : State),
    (∃ t, exec (.ldI nnn) s = .next t ∧ t.i.toNat = nnn.toNat ∧ t.pc = s.pc + 2 ∧ OnlyTouches (· = .index) s t) ∧
    (∃ t, exec (.ldF x) s = .next t ∧ t.i.toNat = 0x050 + 5 * ((s.reg x).toNat % 16) ∧ t.pc = s.pc + 2 ∧
      OnlyTouches (· = .index) s t)

/-- `ADD I, Vx`: the sum modulo 65536; VF is 1 iff the exact sum is above 0x0FFF when ADDI_SETS_VF, and is left alone
otherwise (42_index_and_memory section 2; the threshold is the spec's decision D5, logs 2 and 12). -/
def Obligations.AddToIndexWrapsAtSixteenBits : Prop :=
  ∀ (x : RegNum) (s : State), ∃ t, exec (.addI x) s = .next t ∧
    t.i.toNat = (s.i.toNat + (s.reg x).toNat) % 65536 ∧
    (s.quirks.addiSetsVf = true → t.reg 15 = (if s.i.toNat + (s.reg x).toNat > 0x0FFF then 1 else 0)) ∧
    t.pc = s.pc + 2 ∧
    OnlyTouches (fun p => p = .index ∨ p = .reg 15 ∧ s.quirks.addiSetsVf = true) s t

/-- `LD B, Vx`: hundreds, tens and ones at I, I + 1, I + 2, every other byte and I as before (42_index_and_memory
section 4; the layout is the spec's decision D11, log 12). -/
def Obligations.DecimalStoreWritesThreeDigits : Prop :=
  ∀ (x : RegNum) (s : State), s.i.toNat + 2 ≤ 0xFFF →
    ∃ t, exec (.ldB x) s = .next t ∧
      (t.byteAt s.i.toNat).toNat = (s.reg x).toNat / 100 ∧
      (t.byteAt (s.i.toNat + 1)).toNat = (s.reg x).toNat / 10 % 10 ∧
      (t.byteAt (s.i.toNat + 2)).toNat = (s.reg x).toNat % 10 ∧
      t.pc = s.pc + 2 ∧
      OnlyTouches (fun p => ∃ j < 3, p = .byte (s.i.toNat + j)) s t

/-- `LD [I], Vx`: V[0]..V[x] at ascending addresses from I, every other byte and I as before (42_index_and_memory
section 3; the extent is the spec's general knowledge, I unchanged its decision D9, log 12). -/
def Obligations.StoreRegistersWritesTheBlock : Prop :=
  ∀ (x : RegNum) (s : State), s.i.toNat + x.val ≤ 0xFFF →
    ∃ t, exec (.storeRegs x) s = .next t ∧
      (∀ j : RegNum, j ≤ x → t.byteAt (s.i.toNat + j.val) = s.reg j) ∧ t.pc = s.pc + 2 ∧
      OnlyTouches (fun p => ∃ j : RegNum, j ≤ x ∧ p = .byte (s.i.toNat + j.val)) s t

/-- `LD Vx, [I]`: V[0]..V[x] from ascending addresses from I, every other register and I as before, no byte of memory
changed (42_index_and_memory section 3; as for the store, log 12). -/
def Obligations.LoadRegistersReadsTheBlock : Prop :=
  ∀ (x : RegNum) (s : State), s.i.toNat + x.val ≤ 0xFFF →
    ∃ t, exec (.loadRegs x) s = .next t ∧
      (∀ j : RegNum, j ≤ x → t.reg j = s.byteAt (s.i.toNat + j.val)) ∧ t.pc = s.pc + 2 ∧
      OnlyTouches (fun p => ∃ j : RegNum, j ≤ x ∧ p = .reg j) s t

/-- A register block stored by Fx55 is what Fx65 loads back, from any later state with the same memory and I, whatever
happened to the registers (42_index_and_memory section 3, decision D9). -/
def Obligations.StoredBlockLoadsBack : Prop :=
  ∀ (x : RegNum) (s t u : State), s.i.toNat + x.val ≤ 0xFFF → exec (.storeRegs x) s = .next t →
    (∀ a, u.byteAt a = t.byteAt a) → u.i = t.i →
    ∃ w, exec (.loadRegs x) u = .next w ∧ ∀ j : RegNum, j ≤ x → w.reg j = s.reg j

/-- A store is seen by the very next fetch: Fx55 over the following instruction makes V[0] and V[1] its word
(20_memory section 8, the spec's decision D21, log 12). -/
def Obligations.StoreIsSeenByTheNextFetch : Prop :=
  ∀ (x : RegNum) (s : State), 1 ≤ x.val → s.i = s.pc + 2 → s.i.toNat + x.val ≤ 0xFFF →
    ∃ t, exec (.storeRegs x) s = .next t ∧ t.fetch = some (wordOfBytes (s.reg 0) (s.reg 1))

/-! ### Display -/

/-- `CLS` (R130): all 2048 pixels off, PC + 2, nothing else touched, VF neither. -/
def Obligations.ClearTurnsEveryPixelOff : Prop :=
  ∀ s : State, ∃ t, exec .cls s = .next t ∧ (∀ r c, t.displayOut r c = false) ∧ t.pc = s.pc + 2 ∧
    OnlyTouches (fun p => ∃ r c, p = .pixel r c) s t

/-- `DRW Vx, Vy, n`: every pixel under a 1 of the sprite is flipped, with both coordinates wrapped, every other pixel
is as before, and VF is 1 iff a flipped pixel was on; VF is always written; I and memory are as before (43_display,
the rule of DRW; bit 7 leftmost is the spec's general knowledge, the geometry its decision D13, log 12). -/
def Obligations.DrawXorsTheSpriteWithWrap : Prop :=
  ∀ (x y : RegNum) (n : Fin 16) (s : State), (n.val = 0 ∨ s.i.toNat + n.val - 1 ≤ 0xFFF) →
    ∃ t, exec (.drw x y n) s = .next t ∧
      (∀ r c, SpriteBit s x y n r c → t.displayOut r c = !(s.displayOut r c)) ∧
      ((∃ r c, SpriteBit s x y n r c ∧ s.displayOut r c = true) → t.reg 15 = 1) ∧
      ((∀ r c, SpriteBit s x y n r c → s.displayOut r c = false) → t.reg 15 = 0) ∧
      t.pc = s.pc + 2 ∧
      OnlyTouches (fun p => p = .reg 15 ∨ ∃ r c, p = .pixel r c ∧ SpriteBit s x y n r c) s t

/-- Dxy0 reads no memory, changes no pixel and raises no error whatever I holds, and writes VF = 0 (43_display, item 4
of the rasteriser's properties). -/
def Obligations.DrawOfZeroRowsOnlyClearsVf : Prop :=
  ∀ (x y : RegNum) (s : State), ∃ t, exec (.drw x y 0) s = .next t ∧ t.reg 15 = 0 ∧ t.pc = s.pc + 2 ∧
    OnlyTouches (· = .reg 15) s t

/-- Drawing the same sprite twice at the same coordinates restores the display, and the second draw reports a
collision iff the sprite has a 1 over a pixel that was off before the first (43_display, item 7 of the rasteriser's
properties, with its caveat that the pixels were clear: over pixels all on the pseudocode gives VF = 0). The
coordinates are the same when neither register is VF, or when the first draw leaves VF, which it overwrites, as it
was; the second draw answers in any case. -/
def Obligations.DrawingTwiceRestoresTheDisplay : Prop :=
  ∀ (x y : RegNum) (n : Fin 16) (s : State), (n.val = 0 ∨ s.i.toNat + n.val - 1 ≤ 0xFFF) →
    ∃ t u, exec (.drw x y n) s = .next t ∧ exec (.drw x y n) t = .next u ∧
      (x ≠ 15 → t.reg x = s.reg x) ∧ (y ≠ 15 → t.reg y = s.reg y) ∧
      (t.reg x = s.reg x → t.reg y = s.reg y →
        (∀ r c, u.displayOut r c = s.displayOut r c) ∧
        (u.reg 15 = 1 ↔ ∃ r c, SpriteBit s x y n r c ∧ s.displayOut r c = false))

/-! ### Keypad and timers -/

/-- The key skips: the key whose number is the low nibble of V[x], tested in the latch (44_keypad_and_timers section
1; the senses are the spec's general knowledge, the low nibble its decision D27, log 12). -/
def Obligations.KeySkipsTestTheLatch : Prop :=
  ∀ (x : RegNum) (s : State) (k : Key), k.val = (s.reg x).toNat % 16 →
    (∃ t, exec (.skp x) s = .next t ∧ t.pc = s.pc + (if s.key k then 4 else 2) ∧ OnlyTouches (fun _ => False) s t) ∧
    (∃ t, exec (.sknp x) s = .next t ∧ t.pc = s.pc + (if s.key k then 2 else 4) ∧ OnlyTouches (fun _ => False) s t)

/-- The key wait: with no key down nothing changes, PC neither; with keys down the least of them goes to V[x] and PC
advances (44_keypad_and_timers section 1; level-sensitive and least key are the spec's decision D14, log 12). -/
def Obligations.KeyWaitHoldsUntilAKeyIsDown : Prop :=
  ∀ (x : RegNum) (s : State),
    ((∀ k, s.key k = false) → exec (.ldVxK x) s = .next s) ∧
    (∀ k, s.key k = true → (∀ j, j < k → s.key j = false) →
      ∃ t, exec (.ldVxK x) s = .next t ∧ (t.reg x).toNat = k.val ∧ t.pc = s.pc + 2 ∧ OnlyTouches (· = .reg x) s t)

/-- The timer transfers, and the sound output that follows ST at once (44_keypad_and_timers section 2, 60_exceptions
R162; which word is which transfer is the spec's general knowledge, log 12). -/
def Obligations.TimerTransfers : Prop :=
  ∀ (x : RegNum) (s : State),
    (∃ t, exec (.ldVxDt x) s = .next t ∧ t.reg x = s.dt ∧ t.pc = s.pc + 2 ∧ OnlyTouches (· = .reg x) s t) ∧
    (∃ t, exec (.ldDtVx x) s = .next t ∧ t.dt = s.reg x ∧ t.pc = s.pc + 2 ∧ OnlyTouches (· = .delay) s t) ∧
    (∃ t, exec (.ldStVx x) s = .next t ∧ t.st = s.reg x ∧ (t.soundActive = true ↔ (s.reg x).toNat > 0) ∧
      t.pc = s.pc + 2 ∧ OnlyTouches (· = .sound) s t)

/-! ### The whole machine -/

/-- The invariant holds after reset. -/
def Obligations.ResetMeetsTheInvariant : Prop := State.reset.Inv

/-- Every event keeps the invariant: memory stays in canonical form, PC at most 0x10FE, stacked return addresses at
most 0x1000 (10_state R19, "The largest value PC can take is 0x10FE", a derivation the spec marks as its own). -/
def Obligations.EveryStepKeepsTheInvariant : Prop :=
  ∀ s t : State, s.Inv → step s = .next t → t.Inv

/-- R31: who may write what. An instruction leaves the keypad latch alone, and writes DT and ST through Fx15 and Fx18
only; `tick` writes only DT and ST; `set_pressed` writes only the latch. -/
def Obligations.EachAgentWritesOnlyItsParts : Prop :=
  (∀ (i : Instr) (s t : State), exec i s = .next t →
    (∀ k, t.key k = s.key k) ∧ (t.dt ≠ s.dt → ∃ x, i = .ldDtVx x) ∧ (t.st ≠ s.st → ∃ x, i = .ldStVx x)) ∧
  (∀ (s t : State) (rest : List Event), s.schedule = .tick :: rest → step s = .next t →
    t = { s with dt := t.dt, st := t.st, schedule := rest }) ∧
  (∀ (s t : State) (keys : List Key) (rest : List Event), s.schedule = .setPressed keys :: rest → step s = .next t →
    t = { s with keys := t.keys, schedule := rest })

/-- The column "written by" of 10_state section 1, over all instructions and every row of that table: an instruction
changes a part only if it is one of the part's writers there. PC is written unless the instruction raises an error or
waits for a key, status only by raising, the latch by none. The model's own draw counter is changed by Cxkk only, the
configuration and the schedule by none (logs 2, 3 and 4). -/
def Obligations.EachPartHasItsWriters : Prop :=
  ∀ (i : Instr) (s t : State), exec i s = .next t →
    (∀ r, t.reg r ≠ s.reg r → mayWriteReg i s r) ∧
    (t.pc ≠ s.pc → raises i s = none ∧ ¬((∃ x, i = .ldVxK x) ∧ ∀ k, s.key k = false)) ∧
    (t.dt ≠ s.dt → ∃ x, i = .ldDtVx x) ∧ (t.st ≠ s.st → ∃ x, i = .ldStVx x) ∧
    (∀ k, t.key k = s.key k) ∧
    (t.status ≠ s.status → ∃ k, raises i s = some k ∧ t.status = .halted k) ∧
    (t.i ≠ s.i → (∃ nnn, i = .ldI nnn) ∨ (∃ x, i = .addI x) ∨ ∃ x, i = .ldF x) ∧
    (t.sp ≠ s.sp → i = .ret ∨ ∃ nnn, i = .call nnn) ∧
    (t.stack ≠ s.stack → ∃ nnn, i = .call nnn) ∧
    (t.mem ≠ s.mem → (∃ x, i = .ldB x) ∨ ∃ x, i = .storeRegs x) ∧
    (t.display ≠ s.display → i = .cls ∨ ∃ x y n, i = .drw x y n) ∧
    (t.draws ≠ s.draws → ∃ x kk, i = .rnd x kk) ∧
    t.quirks = s.quirks ∧ t.schedule = s.schedule

/-- VF is exactly 0 or 1 after an instruction that writes it as a flag and does not fault (10_state section 3). -/
def Obligations.FlagsAreZeroOrOne : Prop :=
  ∀ (i : Instr) (s t : State), exec i s = .next t → raises i s = none →
    (∃ x y, i = .addReg x y ∨ i = .subReg x y ∨ i = .subn x y ∨ i = .shr x y ∨ i = .shl x y) ∨
      (∃ x y n, i = .drw x y n) ∨ ((∃ x, i = .addI x) ∧ s.quirks.addiSetsVf = true) →
    t.reg 15 = 0 ∨ t.reg 15 = 1

/-- What lies in popped stack entries is never seen: two states that differ there only go to states that differ there
only (10_state section 6, "nothing can read it in between", the spec's decision D16). -/
def Obligations.PoppedEntriesAreNeverRead : Prop :=
  ∀ s s' t : State, SameButResidue s s' → step s = .next t →
    ∃ t', step s' = .next t' ∧ SameButResidue t t'

/-- ST is not readable: two states that differ in ST only go, by any instruction, to states that differ in ST only
(10_state R22, "not readable by any instruction"). -/
def Obligations.SoundTimerIsNeverRead : Prop :=
  ∀ (i : Instr) (s t : State) (b : Byte), exec i s = .next t →
    ∃ c, exec i { s with st := b } = .next { t with st := c }

/-- The stable conditions (70_reset_and_hazards section 6): a running core that is idle, or waits for a key, is a
fixed point of `step`, and so is a halted one. -/
def Obligations.StableConditionsAreFixedPoints : Prop :=
  ∀ s : State, s.schedule = [] → (s.Idle ∨ s.Waiting ∨ s.Halted) → step s = .next s

/-- A running core at an idle loop runs safely for ever when no other event comes (70_reset_and_hazards section 6 (a)):
the schedule is empty, the premise of log 4. -/
def Obligations.IdleLoopIsSafeForEver : Prop :=
  ∀ (s : State) (n : Nat), s.schedule = [] → s.status = .running → s.Idle → SafeRun n s

/-- Memories in canonical form that read the same everywhere are equal as data (the model's representation, log 7). -/
def Obligations.CanonicalMemoriesAreDeterminedByTheirBytes : Prop :=
  ∀ m m' : Memory, m.wf = true → m'.wf = true → (∀ a, m.byteAt a = m'.byteAt a) → m = m'
end

