-- ==== Sys2Proof/Laws/Decode.lean ====
section
/-! SUPPORT. The fields of an encoded word: what each format puts in, each field reads back (30_encoding R61, R62). -/

namespace Sys2Proof

/-! ### Slices of an appended bit vector -/

theorem extract_append_low {a b : Nat} (x : BitVec a) (y : BitVec b) : (x ++ y).extractLsb' 0 b = y := by
  ext k hk; simp [BitVec.getLsbD_append, hk]

theorem extract_append_high {a b : Nat} (x : BitVec a) (y : BitVec b) (s w : Nat) :
    (x ++ y).extractLsb' (b + s) w = x.extractLsb' s w := by
  ext k hk; simp [BitVec.getLsbD_append, Nat.add_assoc]

theorem extract_all {a : Nat} (x : BitVec a) : x.extractLsb' 0 a = x := by
  ext k hk; simp

/-! ### Format NNN -/

@[simp] theorem fieldFam_encodeNNN (f : BitVec 4) (n : Addr12) : fieldFam (encodeNNN f n) = f :=
  (extract_append_high f n 0 4).trans (extract_all f)

@[simp] theorem fieldNNN_encodeNNN (f : BitVec 4) (n : Addr12) : fieldNNN (encodeNNN f n) = n :=
  extract_append_low f n

/-! ### Formats XKK and XSS -/

section
variable (f : BitVec 4) (x : RegNum) (kk : Byte)

@[simp] theorem fieldFam_encodeXKK : fieldFam (encodeXKK f x kk) = f :=
  (extract_append_high (f ++ (BitVec.ofFin x : BitVec 4)) kk 4 4).trans
    ((extract_append_high f (BitVec.ofFin x : BitVec 4) 0 4).trans (extract_all f))

@[simp] theorem fieldX_encodeXKK : fieldX (encodeXKK f x kk) = x :=
  congrArg BitVec.toFin ((extract_append_high (f ++ (BitVec.ofFin x : BitVec 4)) kk 0 4).trans
    (extract_append_low f (BitVec.ofFin x : BitVec 4)))

@[simp] theorem fieldKK_encodeXKK : fieldKK (encodeXKK f x kk) = kk :=
  extract_append_low (f ++ (BitVec.ofFin x : BitVec 4)) kk

end

/-! ### Formats XYS and XYN -/

section
variable (f : BitVec 4) (x y : RegNum) (n : BitVec 4)

@[simp] theorem fieldFam_encodeXYN : fieldFam (encodeXYN f x y n) = f :=
  (extract_append_high (f ++ (BitVec.ofFin x : BitVec 4) ++ (BitVec.ofFin y : BitVec 4)) n 8 4).trans
    ((extract_append_high (f ++ (BitVec.ofFin x : BitVec 4)) (BitVec.ofFin y : BitVec 4) 4 4).trans
      ((extract_append_high f (BitVec.ofFin x : BitVec 4) 0 4).trans (extract_all f)))

@[simp] theorem fieldX_encodeXYN : fieldX (encodeXYN f x y n) = x :=
  congrArg BitVec.toFin
    ((extract_append_high (f ++ (BitVec.ofFin x : BitVec 4) ++ (BitVec.ofFin y : BitVec 4)) n 4 4).trans
      ((extract_append_high (f ++ (BitVec.ofFin x : BitVec 4)) (BitVec.ofFin y : BitVec 4) 0 4).trans
        (extract_append_low f (BitVec.ofFin x : BitVec 4))))

@[simp] theorem fieldY_encodeXYN : fieldY (encodeXYN f x y n) = y :=
  congrArg BitVec.toFin
    ((extract_append_high (f ++ (BitVec.ofFin x : BitVec 4) ++ (BitVec.ofFin y : BitVec 4)) n 0 4).trans
      (extract_append_low (f ++ (BitVec.ofFin x : BitVec 4)) (BitVec.ofFin y : BitVec 4)))

@[simp] theorem fieldSub_encodeXYN : fieldSub (encodeXYN f x y n) = n :=
  extract_append_low (f ++ (BitVec.ofFin x : BitVec 4) ++ (BitVec.ofFin y : BitVec 4)) n

@[simp] theorem fieldN_encodeXYN : fieldN (encodeXYN f x y n) = n.toFin :=
  congrArg BitVec.toFin (fieldSub_encodeXYN f x y n)

end

end Sys2Proof
end

