-- ==== Sys2Proof/Laws/Memory.lean ====
section
/-! SUPPORT. What memory's operations do: a byte read after a write, blocks, and that every operation keeps the
canonical form. -/

namespace Sys2Proof.Machine

variable {m : Memory}

/-! ### One byte -/

theorem Memory.byteAt_insertCell (m : Memory) (a : Nat) (b : Byte) (c : Nat) :
    Memory.byteAt (m.insertCell a b) c = if c = a then b else m.byteAt c := by
  induction m with
  | nil => simp [Memory.insertCell, Memory.byteAt]
  | cons h t ih =>
    obtain ⟨k, d⟩ := h
    unfold Memory.insertCell
    split
    · simp [Memory.byteAt]
    · split
      · next h => subst h; simp only [Memory.byteAt]; split <;> rfl
      · next h =>
        simp only [Memory.byteAt, ih]
        by_cases hc : c = k
        · simp [hc, Ne.symm h]
        · simp [hc]

theorem Memory.byteAt_eraseCell (m : Memory) (a : Nat) (c : Nat) :
    Memory.byteAt (m.eraseCell a) c = if c = a then background a else m.byteAt c := by
  induction m with
  | nil => simp only [Memory.eraseCell, Memory.byteAt]; split <;> simp_all
  | cons h t ih =>
    obtain ⟨k, d⟩ := h
    unfold Memory.eraseCell
    split
    · next h => subst h; simp only [Memory.byteAt, ih]; split <;> simp_all
    · next h =>
      simp only [Memory.byteAt, ih]
      by_cases hc : c = k
      · simp [hc, Ne.symm h]
      · simp [hc]

/-- Read after write: the byte written at its address, every other byte as before. -/
@[simp] theorem Memory.byteAt_write (m : Memory) (a : Nat) (b : Byte) (c : Nat) :
    (m.write a b).byteAt c = if c = a then b else m.byteAt c := by
  unfold Memory.write
  split
  · next h => rw [Memory.byteAt_eraseCell, ← h]
  · exact Memory.byteAt_insertCell m a b c

/-! ### Blocks -/

/-- A stored block holds its bytes at ascending addresses; every other byte is as before. -/
theorem Memory.byteAt_storeFrom (m : Memory) (a : Nat) (bs : List Byte) (c : Nat) :
    (m.storeFrom a bs).byteAt c = if a ≤ c ∧ c < a + bs.length then bs.getD (c - a) 0 else m.byteAt c := by
  induction bs generalizing m a with
  | nil =>
    rw [Memory.storeFrom, if_neg (by simp)]
  | cons b bs ih =>
    simp only [Memory.storeFrom, ih, Memory.byteAt_write, List.length_cons]
    by_cases h1 : a + 1 ≤ c ∧ c < a + 1 + bs.length
    · have h2 : a ≤ c ∧ c < a + (bs.length + 1) := by omega
      rw [if_pos h1, if_pos h2]
      obtain ⟨d, hd⟩ : ∃ d, c - a = d + 1 := ⟨c - a - 1, by omega⟩
      rw [hd, List.getD_cons_succ, show c - (a + 1) = d by omega]
    · rw [if_neg h1]
      by_cases h2 : c = a
      · subst h2; simp
      · rw [if_neg h2, if_neg (by omega)]

@[simp] theorem Memory.length_bytesFrom (m : Memory) (a n : Nat) : (m.bytesFrom a n).length = n := by
  induction n generalizing a with
  | zero => rfl
  | succ n ih => simp [Memory.bytesFrom, ih]

theorem Memory.getD_bytesFrom (m : Memory) (a n j : Nat) (h : j < n) :
    (m.bytesFrom a n).getD j 0 = m.byteAt (a + j) := by
  induction n generalizing a j with
  | zero => omega
  | succ n ih =>
    cases j with
    | zero => simp [Memory.bytesFrom]
    | succ j =>
      rw [Memory.bytesFrom, List.getD_cons_succ, ih (a + 1) j (by omega)]
      congr 1; omega

/-- What the bound check of a block says (R44). -/
theorem rangeOk_iff (a len : Nat) : rangeOk a len = true ↔ len = 0 ∨ a + len ≤ 4096 := by
  simp only [rangeOk, Bool.or_eq_true, decide_eq_true_eq]; omega

/-- Everything a block read can do. -/
theorem Memory.readBlock_cases (m : Memory) (a len : Nat) :
    (rangeOk a len = true ∧ m.readBlock a len = some (m.bytesFrom a len)) ∨
    (rangeOk a len = false ∧ m.readBlock a len = none) := by
  unfold Memory.readBlock; cases rangeOk a len <;> simp

/-- Everything a block write can do. -/
theorem Memory.writeBlock_cases (m : Memory) (a : Nat) (bs : List Byte) :
    (rangeOk a bs.length = true ∧ m.writeBlock a bs = some (m.storeFrom a bs)) ∨
    (rangeOk a bs.length = false ∧ m.writeBlock a bs = none) := by
  unfold Memory.writeBlock; cases rangeOk a bs.length <;> simp

/-! ### The canonical form -/

theorem Memory.wf_cons (k : Nat) (b : Byte) (m : Memory) :
    Memory.wf ((k, b) :: m) = true ↔ k < 4096 ∧ b ≠ background k ∧ (∀ c ∈ m, k < c.1) ∧ m.wf = true := by
  simp only [Memory.wf, Bool.and_eq_true, decide_eq_true_eq, List.all_eq_true, and_assoc]
  rfl

theorem Memory.wf_eraseCell (h : m.wf = true) (a : Nat) :
    Memory.wf (m.eraseCell a) = true ∧ ∀ c ∈ m.eraseCell a, c ∈ m := by
  induction m with
  | nil => simp [Memory.eraseCell, Memory.wf]
  | cons p t ih =>
    obtain ⟨k, d⟩ := p
    rw [Memory.wf_cons] at h
    obtain ⟨hk, hb, hall, ht⟩ := h
    obtain ⟨h1, h2⟩ := ih ht
    unfold Memory.eraseCell
    split
    · exact ⟨h1, fun c hc => List.mem_cons_of_mem _ (h2 c hc)⟩
    · refine ⟨(Memory.wf_cons _ _ _).2 ⟨hk, hb, fun c hc => hall c (h2 c hc), h1⟩, fun c hc => ?_⟩
      rcases List.mem_cons.1 hc with rfl | hc
      · exact List.mem_cons_self
      · exact List.mem_cons_of_mem _ (h2 c hc)

theorem Memory.wf_insertCell (h : m.wf = true) {a : Nat} {b : Byte} (ha : a < 4096) (hb : b ≠ background a) :
    Memory.wf (m.insertCell a b) = true ∧ ∀ c ∈ m.insertCell a b, c = (a, b) ∨ c ∈ m := by
  induction m with
  | nil => simp [Memory.insertCell, Memory.wf, ha, hb]
  | cons p t ih =>
    obtain ⟨k, d⟩ := p
    obtain ⟨hk, hd, hall, ht⟩ := (Memory.wf_cons _ _ _).1 h
    obtain ⟨h1, h2⟩ := ih ht
    unfold Memory.insertCell
    split
    · next hlt =>
      refine ⟨(Memory.wf_cons _ _ _).2 ⟨ha, hb, fun c hc => ?_, h⟩, by simp⟩
      rcases List.mem_cons.1 hc with rfl | hc
      · exact hlt
      · exact Nat.lt_trans hlt (hall c hc)
    · split
      · next heq =>
        subst heq
        refine ⟨(Memory.wf_cons _ _ _).2 ⟨ha, hb, hall, ht⟩, fun c hc => ?_⟩
        rcases List.mem_cons.1 hc with rfl | hc
        · exact .inl rfl
        · exact .inr (List.mem_cons_of_mem _ hc)
      · next hge hne =>
        refine ⟨(Memory.wf_cons _ _ _).2 ⟨hk, hd, fun c hc => ?_, h1⟩, fun c hc => ?_⟩
        · rcases h2 c hc with rfl | hc
          · show k < a; omega
          · exact hall c hc
        · rcases List.mem_cons.1 hc with rfl | hc
          · exact .inr List.mem_cons_self
          · rcases h2 c hc with rfl | hc
            · exact .inl rfl
            · exact .inr (List.mem_cons_of_mem _ hc)

/-- A write inside memory keeps the canonical form. -/
theorem Memory.wf_write (h : m.wf = true) {a : Nat} (ha : a < 4096) (b : Byte) : (m.write a b).wf = true := by
  unfold Memory.write
  split
  · exact (Memory.wf_eraseCell h a).1
  · next hb => exact (Memory.wf_insertCell h ha hb).1

/-- A block stored inside memory keeps the canonical form. -/
theorem Memory.wf_storeFrom (h : m.wf = true) (a : Nat) (bs : List Byte) (hr : bs = [] ∨ a + bs.length ≤ 4096) :
    (m.storeFrom a bs).wf = true := by
  induction bs generalizing m a with
  | nil => exact h
  | cons b bs ih =>
    have hr : a + (bs.length + 1) ≤ 4096 := by simpa using hr
    exact ih (Memory.wf_write h (by omega) b) (a + 1) (.inr (by omega))

/-- A checked block write keeps the canonical form. -/
theorem Memory.wf_writeBlock (h : m.wf = true) {a : Nat} {bs : List Byte} {m' : Memory}
    (hw : m.writeBlock a bs = some m') : m'.wf = true := by
  rcases m.writeBlock_cases a bs with ⟨hr, he⟩ | ⟨_, he⟩
  · rw [he, Option.some.injEq] at hw
    subst hw
    refine Memory.wf_storeFrom h a bs ?_
    rw [rangeOk_iff, List.length_eq_zero_iff] at hr
    exact hr
  · rw [he] at hw; cases hw

theorem Memory.byteAt_of_forall_lt {a : Nat} (h : ∀ c ∈ m, a < c.1) : m.byteAt a = background a := by
  induction m with
  | nil => rfl
  | cons p t ih =>
    obtain ⟨k, d⟩ := p
    have : a < k := h (k, d) List.mem_cons_self
    rw [Memory.byteAt, if_neg (by omega)]
    exact ih fun c hc => h c (List.mem_cons_of_mem _ hc)

end Sys2Proof.Machine
end

