-- ==== Sys2Proof/Laws/State.lean ====
section
/-! SUPPORT. One lemma per field per update of the state, and the reads of registers, entries and keys after an update:
later proofs rewrite with these and never unfold an update. -/

namespace Sys2Proof.Machine

variable (s : State)

/-! ### setReg -/

@[simp] theorem State.setReg_v (x : RegNum) (b : Byte) : (s.setReg x b).v = s.v.set x.val b := rfl
@[simp] theorem State.setReg_i (x : RegNum) (b : Byte) : (s.setReg x b).i = s.i := rfl
@[simp] theorem State.setReg_pc (x : RegNum) (b : Byte) : (s.setReg x b).pc = s.pc := rfl
@[simp] theorem State.setReg_sp (x : RegNum) (b : Byte) : (s.setReg x b).sp = s.sp := rfl
@[simp] theorem State.setReg_stack (x : RegNum) (b : Byte) : (s.setReg x b).stack = s.stack := rfl
@[simp] theorem State.setReg_dt (x : RegNum) (b : Byte) : (s.setReg x b).dt = s.dt := rfl
@[simp] theorem State.setReg_st (x : RegNum) (b : Byte) : (s.setReg x b).st = s.st := rfl
@[simp] theorem State.setReg_mem (x : RegNum) (b : Byte) : (s.setReg x b).mem = s.mem := rfl
@[simp] theorem State.setReg_display (x : RegNum) (b : Byte) : (s.setReg x b).display = s.display := rfl
@[simp] theorem State.setReg_keys (x : RegNum) (b : Byte) : (s.setReg x b).keys = s.keys := rfl
@[simp] theorem State.setReg_status (x : RegNum) (b : Byte) : (s.setReg x b).status = s.status := rfl
@[simp] theorem State.setReg_quirks (x : RegNum) (b : Byte) : (s.setReg x b).quirks = s.quirks := rfl
@[simp] theorem State.setReg_draws (x : RegNum) (b : Byte) : (s.setReg x b).draws = s.draws := rfl
@[simp] theorem State.setReg_schedule (x : RegNum) (b : Byte) : (s.setReg x b).schedule = s.schedule := rfl

/-! ### setRegs -/

@[simp] theorem State.setRegs_v (w : Vector Byte 16) : (s.setRegs w).v = w := rfl
@[simp] theorem State.setRegs_i (w : Vector Byte 16) : (s.setRegs w).i = s.i := rfl
@[simp] theorem State.setRegs_pc (w : Vector Byte 16) : (s.setRegs w).pc = s.pc := rfl
@[simp] theorem State.setRegs_sp (w : Vector Byte 16) : (s.setRegs w).sp = s.sp := rfl
@[simp] theorem State.setRegs_stack (w : Vector Byte 16) : (s.setRegs w).stack = s.stack := rfl
@[simp] theorem State.setRegs_dt (w : Vector Byte 16) : (s.setRegs w).dt = s.dt := rfl
@[simp] theorem State.setRegs_st (w : Vector Byte 16) : (s.setRegs w).st = s.st := rfl
@[simp] theorem State.setRegs_mem (w : Vector Byte 16) : (s.setRegs w).mem = s.mem := rfl
@[simp] theorem State.setRegs_display (w : Vector Byte 16) : (s.setRegs w).display = s.display := rfl
@[simp] theorem State.setRegs_keys (w : Vector Byte 16) : (s.setRegs w).keys = s.keys := rfl
@[simp] theorem State.setRegs_status (w : Vector Byte 16) : (s.setRegs w).status = s.status := rfl
@[simp] theorem State.setRegs_quirks (w : Vector Byte 16) : (s.setRegs w).quirks = s.quirks := rfl
@[simp] theorem State.setRegs_draws (w : Vector Byte 16) : (s.setRegs w).draws = s.draws := rfl
@[simp] theorem State.setRegs_schedule (w : Vector Byte 16) : (s.setRegs w).schedule = s.schedule := rfl

/-! ### setIndex -/

@[simp] theorem State.setIndex_v (a : Word) : (s.setIndex a).v = s.v := rfl
@[simp] theorem State.setIndex_i (a : Word) : (s.setIndex a).i = a := rfl
@[simp] theorem State.setIndex_pc (a : Word) : (s.setIndex a).pc = s.pc := rfl
@[simp] theorem State.setIndex_sp (a : Word) : (s.setIndex a).sp = s.sp := rfl
@[simp] theorem State.setIndex_stack (a : Word) : (s.setIndex a).stack = s.stack := rfl
@[simp] theorem State.setIndex_dt (a : Word) : (s.setIndex a).dt = s.dt := rfl
@[simp] theorem State.setIndex_st (a : Word) : (s.setIndex a).st = s.st := rfl
@[simp] theorem State.setIndex_mem (a : Word) : (s.setIndex a).mem = s.mem := rfl
@[simp] theorem State.setIndex_display (a : Word) : (s.setIndex a).display = s.display := rfl
@[simp] theorem State.setIndex_keys (a : Word) : (s.setIndex a).keys = s.keys := rfl
@[simp] theorem State.setIndex_status (a : Word) : (s.setIndex a).status = s.status := rfl
@[simp] theorem State.setIndex_quirks (a : Word) : (s.setIndex a).quirks = s.quirks := rfl
@[simp] theorem State.setIndex_draws (a : Word) : (s.setIndex a).draws = s.draws := rfl
@[simp] theorem State.setIndex_schedule (a : Word) : (s.setIndex a).schedule = s.schedule := rfl

/-! ### setPc -/

@[simp] theorem State.setPc_v (a : Word) : (s.setPc a).v = s.v := rfl
@[simp] theorem State.setPc_i (a : Word) : (s.setPc a).i = s.i := rfl
@[simp] theorem State.setPc_pc (a : Word) : (s.setPc a).pc = a := rfl
@[simp] theorem State.setPc_sp (a : Word) : (s.setPc a).sp = s.sp := rfl
@[simp] theorem State.setPc_stack (a : Word) : (s.setPc a).stack = s.stack := rfl
@[simp] theorem State.setPc_dt (a : Word) : (s.setPc a).dt = s.dt := rfl
@[simp] theorem State.setPc_st (a : Word) : (s.setPc a).st = s.st := rfl
@[simp] theorem State.setPc_mem (a : Word) : (s.setPc a).mem = s.mem := rfl
@[simp] theorem State.setPc_display (a : Word) : (s.setPc a).display = s.display := rfl
@[simp] theorem State.setPc_keys (a : Word) : (s.setPc a).keys = s.keys := rfl
@[simp] theorem State.setPc_status (a : Word) : (s.setPc a).status = s.status := rfl
@[simp] theorem State.setPc_quirks (a : Word) : (s.setPc a).quirks = s.quirks := rfl
@[simp] theorem State.setPc_draws (a : Word) : (s.setPc a).draws = s.draws := rfl
@[simp] theorem State.setPc_schedule (a : Word) : (s.setPc a).schedule = s.schedule := rfl

/-! ### setDelay -/

@[simp] theorem State.setDelay_v (b : Byte) : (s.setDelay b).v = s.v := rfl
@[simp] theorem State.setDelay_i (b : Byte) : (s.setDelay b).i = s.i := rfl
@[simp] theorem State.setDelay_pc (b : Byte) : (s.setDelay b).pc = s.pc := rfl
@[simp] theorem State.setDelay_sp (b : Byte) : (s.setDelay b).sp = s.sp := rfl
@[simp] theorem State.setDelay_stack (b : Byte) : (s.setDelay b).stack = s.stack := rfl
@[simp] theorem State.setDelay_dt (b : Byte) : (s.setDelay b).dt = b := rfl
@[simp] theorem State.setDelay_st (b : Byte) : (s.setDelay b).st = s.st := rfl
@[simp] theorem State.setDelay_mem (b : Byte) : (s.setDelay b).mem = s.mem := rfl
@[simp] theorem State.setDelay_display (b : Byte) : (s.setDelay b).display = s.display := rfl
@[simp] theorem State.setDelay_keys (b : Byte) : (s.setDelay b).keys = s.keys := rfl
@[simp] theorem State.setDelay_status (b : Byte) : (s.setDelay b).status = s.status := rfl
@[simp] theorem State.setDelay_quirks (b : Byte) : (s.setDelay b).quirks = s.quirks := rfl
@[simp] theorem State.setDelay_draws (b : Byte) : (s.setDelay b).draws = s.draws := rfl
@[simp] theorem State.setDelay_schedule (b : Byte) : (s.setDelay b).schedule = s.schedule := rfl

/-! ### setSound -/

@[simp] theorem State.setSound_v (b : Byte) : (s.setSound b).v = s.v := rfl
@[simp] theorem State.setSound_i (b : Byte) : (s.setSound b).i = s.i := rfl
@[simp] theorem State.setSound_pc (b : Byte) : (s.setSound b).pc = s.pc := rfl
@[simp] theorem State.setSound_sp (b : Byte) : (s.setSound b).sp = s.sp := rfl
@[simp] theorem State.setSound_stack (b : Byte) : (s.setSound b).stack = s.stack := rfl
@[simp] theorem State.setSound_dt (b : Byte) : (s.setSound b).dt = s.dt := rfl
@[simp] theorem State.setSound_st (b : Byte) : (s.setSound b).st = b := rfl
@[simp] theorem State.setSound_mem (b : Byte) : (s.setSound b).mem = s.mem := rfl
@[simp] theorem State.setSound_display (b : Byte) : (s.setSound b).display = s.display := rfl
@[simp] theorem State.setSound_keys (b : Byte) : (s.setSound b).keys = s.keys := rfl
@[simp] theorem State.setSound_status (b : Byte) : (s.setSound b).status = s.status := rfl
@[simp] theorem State.setSound_quirks (b : Byte) : (s.setSound b).quirks = s.quirks := rfl
@[simp] theorem State.setSound_draws (b : Byte) : (s.setSound b).draws = s.draws := rfl
@[simp] theorem State.setSound_schedule (b : Byte) : (s.setSound b).schedule = s.schedule := rfl

/-! ### setMem -/

@[simp] theorem State.setMem_v (m : Memory) : (s.setMem m).v = s.v := rfl
@[simp] theorem State.setMem_i (m : Memory) : (s.setMem m).i = s.i := rfl
@[simp] theorem State.setMem_pc (m : Memory) : (s.setMem m).pc = s.pc := rfl
@[simp] theorem State.setMem_sp (m : Memory) : (s.setMem m).sp = s.sp := rfl
@[simp] theorem State.setMem_stack (m : Memory) : (s.setMem m).stack = s.stack := rfl
@[simp] theorem State.setMem_dt (m : Memory) : (s.setMem m).dt = s.dt := rfl
@[simp] theorem State.setMem_st (m : Memory) : (s.setMem m).st = s.st := rfl
@[simp] theorem State.setMem_mem (m : Memory) : (s.setMem m).mem = m := rfl
@[simp] theorem State.setMem_display (m : Memory) : (s.setMem m).display = s.display := rfl
@[simp] theorem State.setMem_keys (m : Memory) : (s.setMem m).keys = s.keys := rfl
@[simp] theorem State.setMem_status (m : Memory) : (s.setMem m).status = s.status := rfl
@[simp] theorem State.setMem_quirks (m : Memory) : (s.setMem m).quirks = s.quirks := rfl
@[simp] theorem State.setMem_draws (m : Memory) : (s.setMem m).draws = s.draws := rfl
@[simp] theorem State.setMem_schedule (m : Memory) : (s.setMem m).schedule = s.schedule := rfl

/-! ### setDisplay -/

@[simp] theorem State.setDisplay_v (d : Display) : (s.setDisplay d).v = s.v := rfl
@[simp] theorem State.setDisplay_i (d : Display) : (s.setDisplay d).i = s.i := rfl
@[simp] theorem State.setDisplay_pc (d : Display) : (s.setDisplay d).pc = s.pc := rfl
@[simp] theorem State.setDisplay_sp (d : Display) : (s.setDisplay d).sp = s.sp := rfl
@[simp] theorem State.setDisplay_stack (d : Display) : (s.setDisplay d).stack = s.stack := rfl
@[simp] theorem State.setDisplay_dt (d : Display) : (s.setDisplay d).dt = s.dt := rfl
@[simp] theorem State.setDisplay_st (d : Display) : (s.setDisplay d).st = s.st := rfl
@[simp] theorem State.setDisplay_mem (d : Display) : (s.setDisplay d).mem = s.mem := rfl
@[simp] theorem State.setDisplay_display (d : Display) : (s.setDisplay d).display = d := rfl
@[simp] theorem State.setDisplay_keys (d : Display) : (s.setDisplay d).keys = s.keys := rfl
@[simp] theorem State.setDisplay_status (d : Display) : (s.setDisplay d).status = s.status := rfl
@[simp] theorem State.setDisplay_quirks (d : Display) : (s.setDisplay d).quirks = s.quirks := rfl
@[simp] theorem State.setDisplay_draws (d : Display) : (s.setDisplay d).draws = s.draws := rfl
@[simp] theorem State.setDisplay_schedule (d : Display) : (s.setDisplay d).schedule = s.schedule := rfl

/-! ### setKeys -/

@[simp] theorem State.setKeys_v (k : Vector Bool 16) : (s.setKeys k).v = s.v := rfl
@[simp] theorem State.setKeys_i (k : Vector Bool 16) : (s.setKeys k).i = s.i := rfl
@[simp] theorem State.setKeys_pc (k : Vector Bool 16) : (s.setKeys k).pc = s.pc := rfl
@[simp] theorem State.setKeys_sp (k : Vector Bool 16) : (s.setKeys k).sp = s.sp := rfl
@[simp] theorem State.setKeys_stack (k : Vector Bool 16) : (s.setKeys k).stack = s.stack := rfl
@[simp] theorem State.setKeys_dt (k : Vector Bool 16) : (s.setKeys k).dt = s.dt := rfl
@[simp] theorem State.setKeys_st (k : Vector Bool 16) : (s.setKeys k).st = s.st := rfl
@[simp] theorem State.setKeys_mem (k : Vector Bool 16) : (s.setKeys k).mem = s.mem := rfl
@[simp] theorem State.setKeys_display (k : Vector Bool 16) : (s.setKeys k).display = s.display := rfl
@[simp] theorem State.setKeys_keys (k : Vector Bool 16) : (s.setKeys k).keys = k := rfl
@[simp] theorem State.setKeys_status (k : Vector Bool 16) : (s.setKeys k).status = s.status := rfl
@[simp] theorem State.setKeys_quirks (k : Vector Bool 16) : (s.setKeys k).quirks = s.quirks := rfl
@[simp] theorem State.setKeys_draws (k : Vector Bool 16) : (s.setKeys k).draws = s.draws := rfl
@[simp] theorem State.setKeys_schedule (k : Vector Bool 16) : (s.setKeys k).schedule = s.schedule := rfl

/-! ### setStatus -/

@[simp] theorem State.setStatus_v (t : Status) : (s.setStatus t).v = s.v := rfl
@[simp] theorem State.setStatus_i (t : Status) : (s.setStatus t).i = s.i := rfl
@[simp] theorem State.setStatus_pc (t : Status) : (s.setStatus t).pc = s.pc := rfl
@[simp] theorem State.setStatus_sp (t : Status) : (s.setStatus t).sp = s.sp := rfl
@[simp] theorem State.setStatus_stack (t : Status) : (s.setStatus t).stack = s.stack := rfl
@[simp] theorem State.setStatus_dt (t : Status) : (s.setStatus t).dt = s.dt := rfl
@[simp] theorem State.setStatus_st (t : Status) : (s.setStatus t).st = s.st := rfl
@[simp] theorem State.setStatus_mem (t : Status) : (s.setStatus t).mem = s.mem := rfl
@[simp] theorem State.setStatus_display (t : Status) : (s.setStatus t).display = s.display := rfl
@[simp] theorem State.setStatus_keys (t : Status) : (s.setStatus t).keys = s.keys := rfl
@[simp] theorem State.setStatus_status (t : Status) : (s.setStatus t).status = t := rfl
@[simp] theorem State.setStatus_quirks (t : Status) : (s.setStatus t).quirks = s.quirks := rfl
@[simp] theorem State.setStatus_draws (t : Status) : (s.setStatus t).draws = s.draws := rfl
@[simp] theorem State.setStatus_schedule (t : Status) : (s.setStatus t).schedule = s.schedule := rfl

/-! ### countDraw -/

@[simp] theorem State.countDraw_v : s.countDraw.v = s.v := rfl
@[simp] theorem State.countDraw_i : s.countDraw.i = s.i := rfl
@[simp] theorem State.countDraw_pc : s.countDraw.pc = s.pc := rfl
@[simp] theorem State.countDraw_sp : s.countDraw.sp = s.sp := rfl
@[simp] theorem State.countDraw_stack : s.countDraw.stack = s.stack := rfl
@[simp] theorem State.countDraw_dt : s.countDraw.dt = s.dt := rfl
@[simp] theorem State.countDraw_st : s.countDraw.st = s.st := rfl
@[simp] theorem State.countDraw_mem : s.countDraw.mem = s.mem := rfl
@[simp] theorem State.countDraw_display : s.countDraw.display = s.display := rfl
@[simp] theorem State.countDraw_keys : s.countDraw.keys = s.keys := rfl
@[simp] theorem State.countDraw_status : s.countDraw.status = s.status := rfl
@[simp] theorem State.countDraw_quirks : s.countDraw.quirks = s.quirks := rfl
@[simp] theorem State.countDraw_draws : s.countDraw.draws = s.draws + 1 := rfl
@[simp] theorem State.countDraw_schedule : s.countDraw.schedule = s.schedule := rfl

/-! ### advance -/

@[simp] theorem State.advance_v : s.advance.v = s.v := rfl
@[simp] theorem State.advance_i : s.advance.i = s.i := rfl
@[simp] theorem State.advance_pc : s.advance.pc = s.pc + 2#16 := rfl
@[simp] theorem State.advance_sp : s.advance.sp = s.sp := rfl
@[simp] theorem State.advance_stack : s.advance.stack = s.stack := rfl
@[simp] theorem State.advance_dt : s.advance.dt = s.dt := rfl
@[simp] theorem State.advance_st : s.advance.st = s.st := rfl
@[simp] theorem State.advance_mem : s.advance.mem = s.mem := rfl
@[simp] theorem State.advance_display : s.advance.display = s.display := rfl
@[simp] theorem State.advance_keys : s.advance.keys = s.keys := rfl
@[simp] theorem State.advance_status : s.advance.status = s.status := rfl
@[simp] theorem State.advance_quirks : s.advance.quirks = s.quirks := rfl
@[simp] theorem State.advance_draws : s.advance.draws = s.draws := rfl
@[simp] theorem State.advance_schedule : s.advance.schedule = s.schedule := rfl

/-! ### skipIf -/

@[simp] theorem State.skipIf_v (c : Bool) : (s.skipIf c).v = s.v := rfl
@[simp] theorem State.skipIf_i (c : Bool) : (s.skipIf c).i = s.i := rfl
@[simp] theorem State.skipIf_pc (c : Bool) : (s.skipIf c).pc = if c then s.pc + 4#16 else s.pc + 2#16 := rfl
@[simp] theorem State.skipIf_sp (c : Bool) : (s.skipIf c).sp = s.sp := rfl
@[simp] theorem State.skipIf_stack (c : Bool) : (s.skipIf c).stack = s.stack := rfl
@[simp] theorem State.skipIf_dt (c : Bool) : (s.skipIf c).dt = s.dt := rfl
@[simp] theorem State.skipIf_st (c : Bool) : (s.skipIf c).st = s.st := rfl
@[simp] theorem State.skipIf_mem (c : Bool) : (s.skipIf c).mem = s.mem := rfl
@[simp] theorem State.skipIf_display (c : Bool) : (s.skipIf c).display = s.display := rfl
@[simp] theorem State.skipIf_keys (c : Bool) : (s.skipIf c).keys = s.keys := rfl
@[simp] theorem State.skipIf_status (c : Bool) : (s.skipIf c).status = s.status := rfl
@[simp] theorem State.skipIf_quirks (c : Bool) : (s.skipIf c).quirks = s.quirks := rfl
@[simp] theorem State.skipIf_draws (c : Bool) : (s.skipIf c).draws = s.draws := rfl
@[simp] theorem State.skipIf_schedule (c : Bool) : (s.skipIf c).schedule = s.schedule := rfl

/-! ### writeReg -/

@[simp] theorem State.writeReg_v (x : RegNum) (b : Byte) : (s.writeReg x b).v = s.v.set x.val b := rfl
@[simp] theorem State.writeReg_i (x : RegNum) (b : Byte) : (s.writeReg x b).i = s.i := rfl
@[simp] theorem State.writeReg_pc (x : RegNum) (b : Byte) : (s.writeReg x b).pc = s.pc + 2#16 := rfl
@[simp] theorem State.writeReg_sp (x : RegNum) (b : Byte) : (s.writeReg x b).sp = s.sp := rfl
@[simp] theorem State.writeReg_stack (x : RegNum) (b : Byte) : (s.writeReg x b).stack = s.stack := rfl
@[simp] theorem State.writeReg_dt (x : RegNum) (b : Byte) : (s.writeReg x b).dt = s.dt := rfl
@[simp] theorem State.writeReg_st (x : RegNum) (b : Byte) : (s.writeReg x b).st = s.st := rfl
@[simp] theorem State.writeReg_mem (x : RegNum) (b : Byte) : (s.writeReg x b).mem = s.mem := rfl
@[simp] theorem State.writeReg_display (x : RegNum) (b : Byte) : (s.writeReg x b).display = s.display := rfl
@[simp] theorem State.writeReg_keys (x : RegNum) (b : Byte) : (s.writeReg x b).keys = s.keys := rfl
@[simp] theorem State.writeReg_status (x : RegNum) (b : Byte) : (s.writeReg x b).status = s.status := rfl
@[simp] theorem State.writeReg_quirks (x : RegNum) (b : Byte) : (s.writeReg x b).quirks = s.quirks := rfl
@[simp] theorem State.writeReg_draws (x : RegNum) (b : Byte) : (s.writeReg x b).draws = s.draws := rfl
@[simp] theorem State.writeReg_schedule (x : RegNum) (b : Byte) : (s.writeReg x b).schedule = s.schedule := rfl

/-! ### writeRegFlag -/

@[simp] theorem State.writeRegFlag_v (x : RegNum) (b f : Byte) : (s.writeRegFlag x b f).v = (s.v.set x.val b).set 15 f := rfl
@[simp] theorem State.writeRegFlag_i (x : RegNum) (b f : Byte) : (s.writeRegFlag x b f).i = s.i := rfl
@[simp] theorem State.writeRegFlag_pc (x : RegNum) (b f : Byte) : (s.writeRegFlag x b f).pc = s.pc + 2#16 := rfl
@[simp] theorem State.writeRegFlag_sp (x : RegNum) (b f : Byte) : (s.writeRegFlag x b f).sp = s.sp := rfl
@[simp] theorem State.writeRegFlag_stack (x : RegNum) (b f : Byte) : (s.writeRegFlag x b f).stack = s.stack := rfl
@[simp] theorem State.writeRegFlag_dt (x : RegNum) (b f : Byte) : (s.writeRegFlag x b f).dt = s.dt := rfl
@[simp] theorem State.writeRegFlag_st (x : RegNum) (b f : Byte) : (s.writeRegFlag x b f).st = s.st := rfl
@[simp] theorem State.writeRegFlag_mem (x : RegNum) (b f : Byte) : (s.writeRegFlag x b f).mem = s.mem := rfl
@[simp] theorem State.writeRegFlag_display (x : RegNum) (b f : Byte) : (s.writeRegFlag x b f).display = s.display := rfl
@[simp] theorem State.writeRegFlag_keys (x : RegNum) (b f : Byte) : (s.writeRegFlag x b f).keys = s.keys := rfl
@[simp] theorem State.writeRegFlag_status (x : RegNum) (b f : Byte) : (s.writeRegFlag x b f).status = s.status := rfl
@[simp] theorem State.writeRegFlag_quirks (x : RegNum) (b f : Byte) : (s.writeRegFlag x b f).quirks = s.quirks := rfl
@[simp] theorem State.writeRegFlag_draws (x : RegNum) (b f : Byte) : (s.writeRegFlag x b f).draws = s.draws := rfl
@[simp] theorem State.writeRegFlag_schedule (x : RegNum) (b f : Byte) : (s.writeRegFlag x b f).schedule = s.schedule := rfl

/-! ### Registers after an update -/

@[simp] theorem State.reg_setReg (x : RegNum) (b : Byte) (r : RegNum) :
    (s.setReg x b).reg r = if r = x then b else s.reg r := by
  simp only [State.reg, State.setReg_v, Vector.getElem_set, eq_comm (a := r), Fin.ext_iff]

@[simp] theorem State.reg_writeReg (x : RegNum) (b : Byte) (r : RegNum) :
    (s.writeReg x b).reg r = if r = x then b else s.reg r := s.reg_setReg x b r

/-- The flag is the later write (R11): VF holds it whatever x is. -/
@[simp] theorem State.reg_writeRegFlag (x : RegNum) (b f : Byte) (r : RegNum) :
    (s.writeRegFlag x b f).reg r = if r = 15 then f else if r = x then b else s.reg r := by
  rw [← State.reg_setReg, ← State.reg_setReg]
  rfl

/-- A register is read from the register file alone. -/
theorem State.reg_congr {s t : State} (h : t.v = s.v) (r : RegNum) : t.reg r = s.reg r := by
  simp only [State.reg, h]

end Sys2Proof.Machine
end

