-- ==== Sys2Proof/Laws/Ops.lean ====
section
/-! SUPPORT. For each shared operation, once, everything it can do: the stack, the fetch, a fatal error, the events,
one pixel of the rasteriser, and the registers after a block load. Provers cite these and do not unfold the
operations. -/

namespace Sys2Proof.Machine

/-! ### The stack -/

/-- A push stores at S[SP] and counts up, or there is no room. -/
theorem State.push_cases (s : State) (a : Word) :
    (∃ h : s.sp.val < 16, s.push a =
      some { s with stack := s.stack.set s.sp.val a, sp := ⟨s.sp.val + 1, by omega⟩ }) ∨
    (s.sp = 16 ∧ s.push a = none) := by
  unfold State.push
  split
  · next h => exact .inl ⟨h, rfl⟩
  · next h => exact .inr ⟨Fin.ext (by have := s.sp.isLt; show s.sp.val = 16; omega), rfl⟩

/-- A pop reads S[SP - 1] and counts down, the entries left as they are, or the stack is empty. -/
theorem State.pop_cases (s : State) :
    (∃ h : 0 < s.sp.val, s.pop =
      some (s.stack[s.sp.val - 1]'(by omega), { s with sp := ⟨s.sp.val - 1, by omega⟩ })) ∨
    (s.sp = 0 ∧ s.pop = none) := by
  unfold State.pop
  split
  · next h => exact .inl ⟨h, rfl⟩
  · next h => exact .inr ⟨Fin.ext (by show s.sp.val = 0; omega), rfl⟩

/-! ### The fetch -/

/-- The fetch gives the two bytes at PC, or PC + 1 is above 0xFFF. -/
theorem State.fetch_cases (s : State) :
    (s.pc.toNat ≤ 0xFFE ∧
      s.fetch = some (wordOfBytes (s.byteAt s.pc.toNat) (s.byteAt (s.pc.toNat + 1)))) ∨
    (0xFFF ≤ s.pc.toNat ∧ s.fetch = none) := by
  unfold State.fetch
  split
  · next h => exact .inr ⟨by omega, rfl⟩
  · next h => exact .inl ⟨by omega, rfl⟩

/-! ### Events -/

/-- A reset is accepted with every spec state element at its reset value and the image stored, or refused. -/
theorem resetWith_cases (image : List Byte) (s : State) :
    (image.length ≤ 3584 ∧ resetWith image s = .next { State.reset with
      mem := State.reset.mem.storeFrom 0x200 image, quirks := s.quirks, draws := s.draws, schedule := s.schedule }) ∨
    (3584 < image.length ∧ resetWith image s = .refused .imageTooLong) := by
  unfold resetWith
  split
  · next h => exact .inl ⟨h, rfl⟩
  · next h => exact .inr ⟨Nat.lt_of_not_le h, rfl⟩

/-- Everything the event `step` can do: nothing on a halted core, one of the two errors before execution, or the
execution of the instruction at PC. -/
theorem stepCycle_cases (s : State) :
    (∃ k, s.status = .halted k ∧ stepCycle s = .next s) ∨
    (s.status = .running ∧ s.fetch = none ∧ stepCycle s = raise .outOfBounds s) ∨
    (∃ op r, s.status = .running ∧ s.fetch = some op ∧ decode op = .error r ∧ stepCycle s = raise .invalidOpcode s) ∨
    (∃ op i, s.status = .running ∧ s.fetch = some op ∧ decode op = .ok i ∧ stepCycle s = exec i s) := by
  unfold stepCycle
  cases hs : s.status with
  | halted k => exact .inl ⟨k, rfl, rfl⟩
  | running =>
    cases hf : s.fetch with
    | none => exact .inr (.inl ⟨rfl, rfl, rfl⟩)
    | some op =>
      cases hd : decode op with
      | error r => exact .inr (.inr (.inl ⟨op, r, rfl, rfl, hd, by simp only [hd]⟩))
      | ok i => exact .inr (.inr (.inr ⟨op, i, rfl, rfl, hd, by simp only [hd]⟩))

theorem countDown_toNat (b : Byte) : (countDown b).toNat = b.toNat - 1 := by
  unfold countDown
  split
  · next h => subst h; rfl
  · next h => rw [BitVec.toNat_sub_of_le (by bv_omega)]; rfl

/-- The latch holds exactly the given keys. -/
theorem latchOf_getElem (keys : List Key) (k : Key) : (latchOf keys)[k.val] = keys.contains k := by
  simp [latchOf]

/-! ### The rasteriser -/

/-- A flip changes its pixel and no other. -/
theorem Display.pixel_flip (d : Display) (r r' : Fin 32) (c c' : Fin 64) :
    (d.flip r c).pixel r' c' = (if r' = r ∧ c' = c then !(d.pixel r' c') else d.pixel r' c') := by
  unfold Display.flip Display.pixel
  rw [Vector.getElem_set]
  by_cases hr : r' = r
  · subst hr
    have hc := c'.isLt
    simp only [if_true, BitVec.getLsbD_xor, BitVec.getLsbD_shiftLeft, BitVec.getLsbD_one]
    by_cases hcc : c' = c
    · subst hcc; simp [hc]
    · have h2 : ¬ (c'.val - c.val = 0 ∧ ¬ c'.val < c.val) := by
        intro ⟨h1, h3⟩; exact hcc (Fin.ext (by omega))
      simp only [hcc, and_false, if_false]
      by_cases h4 : c'.val < c.val
      · simp [h4]
      · have : c'.val - c.val ≠ 0 := fun h => h2 ⟨h, h4⟩
        simp [this]
  · have : r.val ≠ r'.val := fun h => hr (Fin.ext h.symm)
    simp [hr, this]

@[simp] theorem Display.pixel_clear (r : Fin 32) (c : Fin 64) : Display.clear.pixel r c = false := by
  simp [Display.clear, Display.pixel]

/-- What one bit of a sprite does to every pixel and to the hit. -/
theorem drawBit_spec (b : Byte) (r : Fin 32) (cx c : Nat) (k : Display × Bool) :
    (∀ r' c', (drawBit b r cx c k).1.pixel r' c' =
      if b.getLsbD (7 - c) ∧ r' = r ∧ c' = Fin.ofNat 64 (cx + c) then !(k.1.pixel r' c') else k.1.pixel r' c') ∧
    (drawBit b r cx c k).2 = (k.2 || (b.getLsbD (7 - c) && k.1.pixel r (Fin.ofNat 64 (cx + c)))) := by
  unfold drawBit
  cases hb : b.getLsbD (7 - c)
  · simp
  · simp [Display.pixel_flip]

/-! ### Register blocks -/

/-- Registers j, j + 1, ... hold the bytes in order, the others are as before. -/
theorem getElem_fillRegs (w : Vector Byte 16) (j : Nat) (bs : List Byte) (r : RegNum) :
    (fillRegs w j bs)[r.val] = if j ≤ r.val ∧ r.val < j + bs.length then bs.getD (r.val - j) 0 else w[r.val] := by
  induction bs generalizing w j with
  | nil => rw [fillRegs, if_neg (by simp)]
  | cons b bs ih =>
    rw [fillRegs, ih, Vector.getElem_setIfInBounds]
    by_cases h1 : j + 1 ≤ r.val ∧ r.val < j + 1 + bs.length
    · have h2 : j ≤ r.val ∧ r.val < j + (b :: bs).length := by simp; omega
      rw [if_pos h1, if_pos h2]
      obtain ⟨d, hd⟩ : ∃ d, r.val - j = d + 1 := ⟨r.val - j - 1, by omega⟩
      rw [hd, List.getD_cons_succ, show r.val - (j + 1) = d by omega]
    · rw [if_neg h1]
      by_cases h2 : j = r.val
      · subst h2; simp
      · rw [if_neg h2, if_neg (by simp; omega)]

@[simp] theorem State.length_regBlock (s : State) (x : RegNum) : (s.regBlock x).length = x.val + 1 := by
  simp [State.regBlock]

theorem State.getD_regBlock (s : State) (x r : RegNum) (h : r ≤ x) : (s.regBlock x).getD r.val 0 = s.reg r := by
  have h1 : r.val < x.val + 1 := by have : r.val ≤ x.val := h; omega
  simp [State.regBlock, State.reg, List.getD_eq_getElem?_getD, h1]

end Sys2Proof.Machine
end

