-- ==== Sys2Proof/Laws/Frame.lean ====
section
/-! SUPPORT. Frames: what each update of the state touches, so that the frame of an instruction is read off the updates
it is made of; and for each meaning that can end in more than one way, once, the ways it can end. -/

namespace Sys2Proof.Machine

variable {s t u : State} {P Q : Part → Prop}

/-- An event `step`, scheduled or not, is the cycle on the state it acts on. -/
theorem step_of_actsOn (h : StepActsOn s u) : step s = stepCycle u := by
  rcases h with ⟨h, rfl⟩ | ⟨rest, h, rfl⟩ <;> simp only [step, nextEvent, h, applyEvent]

/-! ### Frames compose -/

theorem OnlyTouches.refl (P : Part → Prop) (s : State) : OnlyTouches P s s := by simp [OnlyTouches]

theorem OnlyTouches.mono (h : OnlyTouches P s t) (hpq : ∀ p, P p → Q p) : OnlyTouches Q s t := by
  obtain ⟨h1, h2, h3, h4, h5, h6, h7, h8, h9, h10, h11, h12⟩ := h
  exact ⟨fun x n => h1 x (mt (hpq _) n), fun n => h2 (mt (hpq _) n), fun n => h3 (mt (hpq _) n),
    fun j n => h4 j (mt (hpq _) n), fun n => h5 (mt (hpq _) n), fun n => h6 (mt (hpq _) n),
    fun a n => h7 a (mt (hpq _) n), fun r c n => h8 r c (mt (hpq _) n), fun k n => h9 k (mt (hpq _) n),
    fun n => h10 (mt (hpq _) n), fun n => h11 (mt (hpq _) n), h12⟩

theorem OnlyTouches.trans (h : OnlyTouches P s t) (g : OnlyTouches P t u) : OnlyTouches P s u := by
  obtain ⟨h1, h2, h3, h4, h5, h6, h7, h8, h9, h10, h11, h12, h13⟩ := h
  obtain ⟨g1, g2, g3, g4, g5, g6, g7, g8, g9, g10, g11, g12, g13⟩ := g
  exact ⟨fun x n => (g1 x n).trans (h1 x n), fun n => (g2 n).trans (h2 n), fun n => (g3 n).trans (h3 n),
    fun j n => (g4 j n).trans (h4 j n), fun n => (g5 n).trans (h5 n), fun n => (g6 n).trans (h6 n),
    fun a n => (g7 a n).trans (h7 a n), fun r c n => (g8 r c n).trans (h8 r c n),
    fun k n => (g9 k n).trans (h9 k n), fun n => (g10 n).trans (h10 n), fun n => (g11 n).trans (h11 n),
    g12.trans h12, g13.trans h13⟩

/-! ### What each update touches -/

theorem touches_setPc (s : State) (a : Word) : OnlyTouches P s (s.setPc a) := OnlyTouches.refl P s
theorem touches_advance (s : State) : OnlyTouches P s s.advance := OnlyTouches.refl P s
theorem touches_skipIf (s : State) (c : Bool) : OnlyTouches P s (s.skipIf c) := OnlyTouches.refl P s

theorem touches_setReg (s : State) (x : RegNum) (b : Byte) (hx : P (.reg x)) : OnlyTouches P s (s.setReg x b) := by
  refine ⟨fun r hr => ?_, fun _ => rfl, fun _ => rfl, fun _ _ => rfl, fun _ => rfl, fun _ => rfl, fun _ _ => rfl,
    fun _ _ _ => rfl, fun _ _ => rfl, fun _ => rfl, fun _ => rfl, rfl, rfl⟩
  rw [State.reg_setReg, if_neg]
  rintro rfl
  exact hr hx

theorem touches_writeReg (s : State) (x : RegNum) (b : Byte) (hx : P (.reg x)) : OnlyTouches P s (s.writeReg x b) :=
  touches_setReg s x b hx

theorem touches_writeRegFlag (s : State) (x : RegNum) (b f : Byte) (hx : P (.reg x)) (hf : P (.reg 15)) :
    OnlyTouches P s (s.writeRegFlag x b f) :=
  (touches_setReg s x b hx).trans (touches_setReg _ 15 f hf)

theorem touches_setRegs (s : State) (w : Vector Byte 16) (h : ∀ r : RegNum, ¬ P (.reg r) → w[r.val] = s.reg r) :
    OnlyTouches P s (s.setRegs w) :=
  ⟨h, fun _ => rfl, fun _ => rfl, fun _ _ => rfl, fun _ => rfl, fun _ => rfl, fun _ _ => rfl, fun _ _ _ => rfl,
    fun _ _ => rfl, fun _ => rfl, fun _ => rfl, rfl, rfl⟩

theorem touches_setIndex (s : State) (a : Word) (h : P .index) : OnlyTouches P s (s.setIndex a) :=
  ⟨fun _ _ => rfl, fun n => absurd h n, fun _ => rfl, fun _ _ => rfl, fun _ => rfl, fun _ => rfl, fun _ _ => rfl,
    fun _ _ _ => rfl, fun _ _ => rfl, fun _ => rfl, fun _ => rfl, rfl, rfl⟩

theorem touches_setDelay (s : State) (b : Byte) (h : P .delay) : OnlyTouches P s (s.setDelay b) :=
  ⟨fun _ _ => rfl, fun _ => rfl, fun _ => rfl, fun _ _ => rfl, fun n => absurd h n, fun _ => rfl, fun _ _ => rfl,
    fun _ _ _ => rfl, fun _ _ => rfl, fun _ => rfl, fun _ => rfl, rfl, rfl⟩

theorem touches_setSound (s : State) (b : Byte) (h : P .sound) : OnlyTouches P s (s.setSound b) :=
  ⟨fun _ _ => rfl, fun _ => rfl, fun _ => rfl, fun _ _ => rfl, fun _ => rfl, fun n => absurd h n, fun _ _ => rfl,
    fun _ _ _ => rfl, fun _ _ => rfl, fun _ => rfl, fun _ => rfl, rfl, rfl⟩

theorem touches_setMem (s : State) (m : Memory) (h : ∀ a, ¬ P (.byte a) → m.byteAt a = s.byteAt a) :
    OnlyTouches P s (s.setMem m) :=
  ⟨fun _ _ => rfl, fun _ => rfl, fun _ => rfl, fun _ _ => rfl, fun _ => rfl, fun _ => rfl, h,
    fun _ _ _ => rfl, fun _ _ => rfl, fun _ => rfl, fun _ => rfl, rfl, rfl⟩

theorem touches_setDisplay (s : State) (d : Display)
    (h : ∀ r c, ¬ P (.pixel r c) → d.pixel r c = s.display.pixel r c) : OnlyTouches P s (s.setDisplay d) :=
  ⟨fun _ _ => rfl, fun _ => rfl, fun _ => rfl, fun _ _ => rfl, fun _ => rfl, fun _ => rfl, fun _ _ => rfl,
    h, fun _ _ => rfl, fun _ => rfl, fun _ => rfl, rfl, rfl⟩

theorem touches_setKeys (s : State) (k : Vector Bool 16) (h : ∀ j : Key, ¬ P (.key j) → k[j.val] = s.key j) :
    OnlyTouches P s (s.setKeys k) :=
  ⟨fun _ _ => rfl, fun _ => rfl, fun _ => rfl, fun _ _ => rfl, fun _ => rfl, fun _ => rfl, fun _ _ => rfl,
    fun _ _ _ => rfl, h, fun _ => rfl, fun _ => rfl, rfl, rfl⟩

theorem touches_setStatus (s : State) (k : Status) (h : P .status) : OnlyTouches P s (s.setStatus k) :=
  ⟨fun _ _ => rfl, fun _ => rfl, fun _ => rfl, fun _ _ => rfl, fun _ => rfl, fun _ => rfl, fun _ _ => rfl,
    fun _ _ _ => rfl, fun _ _ => rfl, fun n => absurd h n, fun _ => rfl, rfl, rfl⟩

theorem touches_countDraw (s : State) (h : P .draws) : OnlyTouches P s s.countDraw :=
  ⟨fun _ _ => rfl, fun _ => rfl, fun _ => rfl, fun _ _ => rfl, fun _ => rfl, fun _ => rfl, fun _ _ => rfl,
    fun _ _ _ => rfl, fun _ _ => rfl, fun _ => rfl, fun n => absurd h n, rfl, rfl⟩

/-! ### The meanings that can end in more than one way -/

/-- `RET`: a return to the top entry, or StackUnderflow. -/
theorem execRet_cases (s : State) :
    (∃ j : Fin 16, s.sp.val = j.val + 1 ∧
      exec .ret s = .next { s with sp := ⟨j.val, by omega⟩, pc := s.entry j }) ∨
    (s.sp = 0 ∧ exec .ret s = raise .stackUnderflow s) := by
  rcases s.pop_cases with ⟨h, e⟩ | ⟨h, e⟩
  · have hsp := s.sp.isLt
    exact .inl ⟨⟨s.sp.val - 1, by omega⟩, by show s.sp.val = s.sp.val - 1 + 1; omega, by simp only [exec, execRet, e]; rfl⟩
  · exact .inr ⟨h, by simp only [exec, execRet, e]⟩

/-- `CALL`: the push and the jump, or StackOverflow. -/
theorem execCall_cases (nnn : Addr12) (s : State) :
    (∃ j : Fin 16, s.sp.val = j.val ∧ exec (.call nnn) s = .next { s with
      stack := s.stack.set j.val (s.pc + 2#16), sp := ⟨j.val + 1, by omega⟩, pc := zext12 nnn }) ∨
    (s.sp = 16 ∧ exec (.call nnn) s = raise .stackOverflow s) := by
  rcases s.push_cases (s.pc + 2#16) with ⟨h, e⟩ | ⟨h, e⟩
  · exact .inl ⟨⟨s.sp.val, h⟩, rfl, by simp only [exec, execCall, e]; rfl⟩
  · exact .inr ⟨h, by simp only [exec, execCall, e]⟩

/-- `DRW`: the drawn sprite and the collision flag, or OutOfBounds. -/
theorem execDrw_cases (x y : RegNum) (n : Fin 16) (s : State) :
    ((n.val = 0 ∨ s.i.toNat + n.val ≤ 4096) ∧ exec (.drw x y n) s = .next (((s.setDisplay
      (drawSprite s.display (s.reg x).toNat (s.reg y).toNat (s.mem.bytesFrom s.i.toNat n.val)).1).setReg 15
      (flagOf (drawSprite s.display (s.reg x).toNat (s.reg y).toNat (s.mem.bytesFrom s.i.toNat n.val)).2)).advance)) ∨
    (¬ (n.val = 0 ∨ s.i.toNat + n.val ≤ 4096) ∧ exec (.drw x y n) s = raise .outOfBounds s) := by
  rw [← rangeOk_iff]
  rcases s.mem.readBlock_cases s.i.toNat n.val with ⟨h, e⟩ | ⟨h, e⟩
  · exact .inl ⟨h, by simp only [exec, execDrw, e]⟩
  · exact .inr ⟨by simp [h], by simp only [exec, execDrw, e]⟩

/-- `LD B`: the three digits stored, or OutOfBounds. -/
theorem execLdB_cases (x : RegNum) (s : State) :
    (s.i.toNat + 3 ≤ 4096 ∧
      exec (.ldB x) s = .next (s.setMem (s.mem.storeFrom s.i.toNat (decimalDigits (s.reg x)))).advance) ∨
    (4096 < s.i.toNat + 3 ∧ exec (.ldB x) s = raise .outOfBounds s) := by
  have hl : (decimalDigits (s.reg x)).length = 3 := rfl
  rcases s.mem.writeBlock_cases s.i.toNat (decimalDigits (s.reg x)) with ⟨h, e⟩ | ⟨h, e⟩
  · rw [rangeOk_iff, hl] at h
    exact .inl ⟨by omega, by simp only [exec, execLdB, e]⟩
  · rw [Bool.eq_false_iff, ne_eq, rangeOk_iff, hl] at h
    exact .inr ⟨by omega, by simp only [exec, execLdB, e]⟩

/-- `LD [I], Vx`: the register block stored, or OutOfBounds. -/
theorem execStoreRegs_cases (x : RegNum) (s : State) :
    (s.i.toNat + x.val + 1 ≤ 4096 ∧
      exec (.storeRegs x) s = .next (s.setMem (s.mem.storeFrom s.i.toNat (s.regBlock x))).advance) ∨
    (4096 < s.i.toNat + x.val + 1 ∧ exec (.storeRegs x) s = raise .outOfBounds s) := by
  rcases s.mem.writeBlock_cases s.i.toNat (s.regBlock x) with ⟨h, e⟩ | ⟨h, e⟩
  · rw [rangeOk_iff, State.length_regBlock] at h
    exact .inl ⟨by omega, by simp only [exec, execStoreRegs, e]⟩
  · rw [Bool.eq_false_iff, ne_eq, rangeOk_iff, State.length_regBlock] at h
    exact .inr ⟨by omega, by simp only [exec, execStoreRegs, e]⟩

/-- `LD Vx, [I]`: the registers loaded, or OutOfBounds. -/
theorem execLoadRegs_cases (x : RegNum) (s : State) :
    (s.i.toNat + x.val + 1 ≤ 4096 ∧ exec (.loadRegs x) s =
      .next (s.setRegs (fillRegs s.v 0 (s.mem.bytesFrom s.i.toNat (x.val + 1)))).advance) ∨
    (4096 < s.i.toNat + x.val + 1 ∧ exec (.loadRegs x) s = raise .outOfBounds s) := by
  rcases s.mem.readBlock_cases s.i.toNat (x.val + 1) with ⟨h, e⟩ | ⟨h, e⟩
  · rw [rangeOk_iff] at h
    exact .inl ⟨by omega, by simp only [exec, execLoadRegs, e]⟩
  · rw [Bool.eq_false_iff, ne_eq, rangeOk_iff] at h
    exact .inr ⟨by omega, by simp only [exec, execLoadRegs, e]⟩

/-- `LD Vx, K`: the least key that is down, or no change at all. -/
theorem execLdVxK_cases (x : RegNum) (s : State) :
    ((∀ k, s.key k = false) ∧ exec (.ldVxK x) s = .next s) ∨
    (∃ k, s.key k = true ∧ (∀ j, j < k → s.key j = false) ∧
      exec (.ldVxK x) s = .next (s.writeReg x (BitVec.ofNat 8 k.val))) := by
  cases e : s.leastKey with
  | none =>
    refine .inl ⟨fun k => ?_, by simp only [exec, execLdVxK, e]⟩
    have := List.find?_eq_none.1 e k (List.mem_finRange k)
    simpa using this
  | some k =>
    refine .inr ⟨k, List.find?_some e, fun j hj => ?_, by simp only [exec, execLdVxK, e]⟩
    obtain ⟨_, i, hi, hk, hlt⟩ := List.find?_eq_some_iff_getElem.1 e
    have hki : k.val = i := by rw [← hk]; simp
    have := hlt j.val (by have : j.val < k.val := hj; omega)
    simpa using this

end Sys2Proof.Machine
end

