-- ==== Sys2Proof/Laws/PerInstr.lean ====
section
/-! SUPPORT. Statements made per instruction. EncodingRow: the word of an instruction belongs to the instruction's row
of the opcode table (30_encoding R66), so no fixed bit of an encoding is wrong. -/

namespace Sys2Proof.Laws.EncodingRow

/-- The encoded word belongs to the instruction's row. -/
def Statement (i : Instr) : Prop := i.row.accepts (encode i) = true

/-- A row that fixes the top nibble accepts every word of format NNN of its family. -/
theorem accepts_NNN (fam : BitVec 4) (nnn : Addr12) :
    OpcodeRow.accepts ⟨0xF000#16, fam ++ 0x000#12⟩ (encodeNNN fam nnn) = true := by
  rw [OpcodeRow.accepts, encodeNNN, show (0xF000#16 : Word) = BitVec.allOnes 4 ++ 0x000#12 from rfl, BitVec.and_append]
  simp only [BitVec.and_allOnes, BitVec.and_zero, BEq.rfl]

/-- A row that fixes the top nibble accepts every word of format XKK of its family. -/
theorem accepts_XKK (fam : BitVec 4) (x : RegNum) (kk : Byte) :
    OpcodeRow.accepts ⟨0xF000#16, fam ++ 0x0#4 ++ 0x00#8⟩ (encodeXKK fam x kk) = true := by
  rw [OpcodeRow.accepts, encodeXKK, show (0xF000#16 : Word) = BitVec.allOnes 4 ++ 0x0#4 ++ 0x00#8 from rfl,
    BitVec.and_append, BitVec.and_append]
  simp only [BitVec.and_allOnes, BitVec.and_zero, BEq.rfl]

/-- A row that fixes the top nibble and the low byte accepts every word of format XSS of its family and sub-opcode. -/
theorem accepts_XSS (fam : BitVec 4) (x : RegNum) (sub : Byte) :
    OpcodeRow.accepts ⟨0xF0FF#16, fam ++ 0x0#4 ++ sub⟩ (encodeXKK fam x sub) = true := by
  rw [OpcodeRow.accepts, encodeXKK, show (0xF0FF#16 : Word) = BitVec.allOnes 4 ++ 0x0#4 ++ BitVec.allOnes 8 from rfl,
    BitVec.and_append, BitVec.and_append]
  simp only [BitVec.and_allOnes, BitVec.and_zero, BEq.rfl]

/-- A row that fixes the top and the low nibble accepts every word of format XYS of its family and sub-opcode. -/
theorem accepts_XYS (fam : BitVec 4) (x y : RegNum) (sub : BitVec 4) :
    OpcodeRow.accepts ⟨0xF00F#16, fam ++ 0x0#4 ++ 0x0#4 ++ sub⟩ (encodeXYN fam x y sub) = true := by
  rw [OpcodeRow.accepts, encodeXYN,
    show (0xF00F#16 : Word) = BitVec.allOnes 4 ++ 0x0#4 ++ 0x0#4 ++ BitVec.allOnes 4 from rfl,
    BitVec.and_append, BitVec.and_append, BitVec.and_append]
  simp only [BitVec.and_allOnes, BitVec.and_zero, BEq.rfl]

/-- A row that fixes the top nibble accepts every word of format XYN of its family. -/
theorem accepts_XYN (fam : BitVec 4) (x y : RegNum) (n : BitVec 4) :
    OpcodeRow.accepts ⟨0xF000#16, fam ++ 0x0#4 ++ 0x0#4 ++ 0x0#4⟩ (encodeXYN fam x y n) = true := by
  rw [OpcodeRow.accepts, encodeXYN, show (0xF000#16 : Word) = BitVec.allOnes 4 ++ 0x0#4 ++ 0x0#4 ++ 0x0#4 from rfl,
    BitVec.and_append, BitVec.and_append, BitVec.and_append]
  simp only [BitVec.and_allOnes, BitVec.and_zero, BEq.rfl]

theorem cls : Statement .cls := rfl
theorem ret : Statement .ret := rfl
theorem jmp (nnn : Addr12) : Statement (.jmp nnn) := accepts_NNN 0x1#4 nnn
theorem call (nnn : Addr12) : Statement (.call nnn) := accepts_NNN 0x2#4 nnn
theorem seImm (x : RegNum) (kk : Byte) : Statement (.seImm x kk) := accepts_XKK 0x3#4 x kk
theorem sneImm (x : RegNum) (kk : Byte) : Statement (.sneImm x kk) := accepts_XKK 0x4#4 x kk
theorem seReg (x y : RegNum) : Statement (.seReg x y) := accepts_XYS 0x5#4 x y 0x0#4
theorem ldImm (x : RegNum) (kk : Byte) : Statement (.ldImm x kk) := accepts_XKK 0x6#4 x kk
theorem addImm (x : RegNum) (kk : Byte) : Statement (.addImm x kk) := accepts_XKK 0x7#4 x kk
theorem ldReg (x y : RegNum) : Statement (.ldReg x y) := accepts_XYS 0x8#4 x y 0x0#4
theorem orReg (x y : RegNum) : Statement (.orReg x y) := accepts_XYS 0x8#4 x y 0x1#4
theorem andReg (x y : RegNum) : Statement (.andReg x y) := accepts_XYS 0x8#4 x y 0x2#4
theorem xorReg (x y : RegNum) : Statement (.xorReg x y) := accepts_XYS 0x8#4 x y 0x3#4
theorem addReg (x y : RegNum) : Statement (.addReg x y) := accepts_XYS 0x8#4 x y 0x4#4
theorem subReg (x y : RegNum) : Statement (.subReg x y) := accepts_XYS 0x8#4 x y 0x5#4
theorem shr (x y : RegNum) : Statement (.shr x y) := accepts_XYS 0x8#4 x y 0x6#4
theorem subn (x y : RegNum) : Statement (.subn x y) := accepts_XYS 0x8#4 x y 0x7#4
theorem shl (x y : RegNum) : Statement (.shl x y) := accepts_XYS 0x8#4 x y 0xE#4
theorem sneReg (x y : RegNum) : Statement (.sneReg x y) := accepts_XYS 0x9#4 x y 0x0#4
theorem ldI (nnn : Addr12) : Statement (.ldI nnn) := accepts_NNN 0xA#4 nnn
theorem jmpV0 (nnn : Addr12) : Statement (.jmpV0 nnn) := accepts_NNN 0xB#4 nnn
theorem rnd (x : RegNum) (kk : Byte) : Statement (.rnd x kk) := accepts_XKK 0xC#4 x kk
theorem drw (x y : RegNum) (n : Fin 16) : Statement (.drw x y n) := accepts_XYN 0xD#4 x y (BitVec.ofFin n)
theorem skp (x : RegNum) : Statement (.skp x) := accepts_XSS 0xE#4 x 0x9E#8
theorem sknp (x : RegNum) : Statement (.sknp x) := accepts_XSS 0xE#4 x 0xA1#8
theorem ldVxDt (x : RegNum) : Statement (.ldVxDt x) := accepts_XSS 0xF#4 x 0x07#8
theorem ldVxK (x : RegNum) : Statement (.ldVxK x) := accepts_XSS 0xF#4 x 0x0A#8
theorem ldDtVx (x : RegNum) : Statement (.ldDtVx x) := accepts_XSS 0xF#4 x 0x15#8
theorem ldStVx (x : RegNum) : Statement (.ldStVx x) := accepts_XSS 0xF#4 x 0x18#8
theorem addI (x : RegNum) : Statement (.addI x) := accepts_XSS 0xF#4 x 0x1E#8
theorem ldF (x : RegNum) : Statement (.ldF x) := accepts_XSS 0xF#4 x 0x29#8
theorem ldB (x : RegNum) : Statement (.ldB x) := accepts_XSS 0xF#4 x 0x33#8
theorem storeRegs (x : RegNum) : Statement (.storeRegs x) := accepts_XSS 0xF#4 x 0x55#8
theorem loadRegs (x : RegNum) : Statement (.loadRegs x) := accepts_XSS 0xF#4 x 0x65#8

end Sys2Proof.Laws.EncodingRow
end

