-- ==== Sys2Proof/Laws/Raster.lean ====
section
/-! SUPPORT. The rasteriser: what drawing some columns of a byte, some rows of a sprite and a whole sprite does to every
pixel and to the hit. Every sprite bit lands on a pixel of its own (43_display R132, item 5), which is what makes the
inductions go through. -/

namespace Sys2Proof.Machine

/-- One of the first n bits of a sprite byte is 1 and lands on column c. -/
def RowBit (b : Byte) (cx n : Nat) (c : Fin 64) : Prop :=
  ∃ k < n, c.val = (cx + k) % 64 ∧ b.getLsbD (7 - k) = true

/-- A bit of the sprite is 1 and lands on row r, column c. -/
def RasterBit (cx cy : Nat) (bs : List Byte) (r : Fin 32) (c : Fin 64) : Prop :=
  ∃ j < bs.length, r.val = (cy + j) % 32 ∧ RowBit (bs.getD j 0) cx 8 c

theorem rowBit_succ (b : Byte) (cx n : Nat) (c : Fin 64) :
    RowBit b cx (n + 1) c ↔ RowBit b cx n c ∨ c = Fin.ofNat 64 (cx + n) ∧ b.getLsbD (7 - n) = true := by
  constructor
  · rintro ⟨k, hk, e, h⟩
    rcases Nat.lt_succ_iff_lt_or_eq.1 hk with h' | rfl
    · exact .inl ⟨k, h', e, h⟩
    · exact .inr ⟨Fin.ext e, h⟩
  · rintro (⟨k, hk, e⟩ | ⟨rfl, h⟩)
    · exact ⟨k, Nat.lt_succ_of_lt hk, e⟩
    · exact ⟨n, Nat.lt_succ_self n, rfl, h⟩

/-- Bit n lands on a column that no earlier bit of the byte lands on. -/
theorem not_rowBit_next (b : Byte) (cx n : Nat) (hn : n < 8) : ¬ RowBit b cx n (Fin.ofNat 64 (cx + n)) := by
  rintro ⟨k, hk, e, _⟩
  have : (Fin.ofNat 64 (cx + n)).val = (cx + n) % 64 := rfl
  omega

/-- The first n columns of a sprite byte: the pixels under its 1 bits are flipped, no other, and there is a hit iff
there was one or a flipped pixel was on. -/
theorem drawBits_spec (b : Byte) (r : Fin 32) (cx n : Nat) (hn : n ≤ 8) (k : Display × Bool) :
    (∀ r' c, (r' = r ∧ RowBit b cx n c → (drawBits b r cx n k).1.pixel r' c = !(k.1.pixel r' c)) ∧
      (¬ (r' = r ∧ RowBit b cx n c) → (drawBits b r cx n k).1.pixel r' c = k.1.pixel r' c)) ∧
    ((drawBits b r cx n k).2 = true ↔ k.2 = true ∨ ∃ c, RowBit b cx n c ∧ k.1.pixel r c = true) := by
  induction n with
  | zero => simp [drawBits, RowBit]
  | succ n ih =>
    obtain ⟨ih1, ih2⟩ := ih (by omega)
    obtain ⟨s1, s2⟩ := drawBit_spec b r cx n (drawBits b r cx n k)
    have hnew := not_rowBit_next b cx n (by omega)
    rw [drawBits]
    constructor
    · intro r' c
      rw [s1, rowBit_succ]
      constructor
      · rintro ⟨rfl, h | ⟨rfl, hb⟩⟩
        · have hc : c ≠ Fin.ofNat 64 (cx + n) := fun e => hnew (e ▸ h)
          rw [if_neg (fun h' => hc h'.2.2), (ih1 _ c).1 ⟨rfl, h⟩]
        · rw [if_pos ⟨hb, rfl, rfl⟩, (ih1 _ _).2 (fun h => hnew h.2)]
      · intro h
        rw [if_neg (fun h' => h ⟨h'.2.1, .inr ⟨h'.2.2, h'.1⟩⟩), (ih1 r' c).2 (fun h' => h ⟨h'.1, .inl h'.2⟩)]
    · rw [s2, Bool.or_eq_true, Bool.and_eq_true, ih2, (ih1 r _).2 (fun h => hnew h.2), or_assoc]
      refine or_congr Iff.rfl ?_
      simp only [rowBit_succ]
      constructor
      · rintro (⟨c, h, hp⟩ | ⟨hb, hp⟩)
        · exact ⟨c, .inl h, hp⟩
        · exact ⟨_, .inr ⟨rfl, hb⟩, hp⟩
      · rintro ⟨c, h | ⟨rfl, hb⟩, hp⟩
        · exact .inl ⟨c, h, hp⟩
        · exact .inr ⟨hb, hp⟩

theorem rasterBit_cons (cx cy : Nat) (b : Byte) (bs : List Byte) (r : Fin 32) (c : Fin 64) :
    RasterBit cx cy (b :: bs) r c ↔ (r = Fin.ofNat 32 cy ∧ RowBit b cx 8 c) ∨ RasterBit cx (cy + 1) bs r c := by
  constructor
  · rintro ⟨j, hj, e, h⟩
    cases j with
    | zero => exact .inl ⟨Fin.ext e, h⟩
    | succ j => exact .inr ⟨j, Nat.lt_of_succ_lt_succ hj, by rw [e]; congr 1; omega, h⟩
  · rintro (⟨rfl, h⟩ | ⟨j, hj, e, h⟩)
    · exact ⟨0, Nat.zero_lt_succ _, rfl, h⟩
    · exact ⟨j + 1, Nat.succ_lt_succ hj, by rw [e]; congr 1; omega, h⟩

/-- The rows of a sprite, at most 31 of them. -/
theorem drawRows_spec (cx cy : Nat) (bs : List Byte) (hn : bs.length < 32) (k : Display × Bool) :
    (∀ r c, (RasterBit cx cy bs r c → (drawRows cx cy bs k).1.pixel r c = !(k.1.pixel r c)) ∧
      (¬ RasterBit cx cy bs r c → (drawRows cx cy bs k).1.pixel r c = k.1.pixel r c)) ∧
    ((drawRows cx cy bs k).2 = true ↔ k.2 = true ∨ ∃ r c, RasterBit cx cy bs r c ∧ k.1.pixel r c = true) := by
  induction bs generalizing cy k with
  | nil => simp [drawRows, RasterBit]
  | cons b bs ih =>
    have hn : bs.length + 1 < 32 := hn
    obtain ⟨s1, s2⟩ := drawBits_spec b (Fin.ofNat 32 cy) cx 8 (Nat.le_refl 8) k
    obtain ⟨i1, i2⟩ := ih (cy + 1) (by omega) (drawBits b (Fin.ofNat 32 cy) cx 8 k)
    have hexcl : ∀ r c, RasterBit cx (cy + 1) bs r c → r ≠ Fin.ofNat 32 cy := by
      rintro r c ⟨j, hj, e, _⟩ rfl
      have : (Fin.ofNat 32 cy).val = cy % 32 := rfl
      omega
    rw [drawRows]
    simp only [rasterBit_cons]
    constructor
    · intro r c
      constructor
      · rintro (h | h)
        · rw [(i1 r c).2 (fun h' => hexcl r c h' h.1), (s1 r c).1 h]
        · rw [(i1 r c).1 h, (s1 r c).2 (fun h' => hexcl r c h h'.1)]
      · intro h
        rw [not_or] at h
        rw [(i1 r c).2 h.2, (s1 r c).2 h.1]
    · rw [i2, s2, or_assoc]
      refine or_congr Iff.rfl ?_
      constructor
      · rintro (⟨c, h, hp⟩ | ⟨r, c, h, hp⟩)
        · exact ⟨_, c, .inl ⟨rfl, h⟩, hp⟩
        · rw [(s1 r c).2 (fun h' => hexcl r c h h'.1)] at hp
          exact ⟨r, c, .inr h, hp⟩
      · rintro ⟨r, c, ⟨rfl, h⟩ | h, hp⟩
        · exact .inl ⟨c, h, hp⟩
        · exact .inr ⟨r, c, h, by rw [(s1 r c).2 (fun h' => hexcl r c h h'.1)]; exact hp⟩

/-- A whole sprite: the pixels under its 1 bits are flipped, no other, and there is a hit iff one of them was on. -/
theorem drawSprite_spec (d : Display) (cx cy : Nat) (bs : List Byte) (hn : bs.length < 32) :
    (∀ r c, (RasterBit cx cy bs r c → (drawSprite d cx cy bs).1.pixel r c = !(d.pixel r c)) ∧
      (¬ RasterBit cx cy bs r c → (drawSprite d cx cy bs).1.pixel r c = d.pixel r c)) ∧
    ((drawSprite d cx cy bs).2 = true ↔ ∃ r c, RasterBit cx cy bs r c ∧ d.pixel r c = true) := by
  obtain ⟨h1, h2⟩ := drawRows_spec cx cy bs hn (d, false)
  refine ⟨h1, ?_⟩
  rw [drawSprite]
  simpa using h2

end Sys2Proof.Machine
end

