-- ==== Sys2Proof/Tests/Slice0.lean ====
section
/-! SUPPORT. The model's own tests: ill-formed words are refused, words written out from the spec's encodings decode to
their instructions, one step per instruction against the vectors of 95_test_vectors, and for every statement with
hypotheses a concrete state that meets them. -/

namespace Sys2Proof.Tests

open Sys2Proof.Machine

/-! ### Helpers -/

/-- The state an answer goes on in, if it does. -/
def after (o : Result) : Option State :=
  match o with
  | .next t => some t
  | .fault _ => none
  | .refused _ => none

/-- The machine after reset, with PC and the given registers set. -/
def start (pc : Word) (regs : List (RegNum × Byte)) : State :=
  regs.foldl (fun s r => s.setReg r.1 r.2) { State.reset with pc := pc }

/-- What can be seen after the word `w` is run from `s`, through fetch and decode. -/
def see {α : Type} (w : Nat) (s : State) (f : State → α) : Option α := (after (step (s.withFetchWord 16 w))).map f

/-- The core halted with InvalidOpcode, and the given events to come. -/
def haltedWith (events : List Event) : State :=
  { State.reset with status := .halted .invalidOpcode, dt := 0x05#8, schedule := events }

/-- The parameters with one of them true. -/
def quirkShift : Quirks := { Quirks.default with shiftUsesVy := true }
/-- The parameters with one of them true. -/
def quirkAddI : Quirks := { Quirks.default with addiSetsVf := true }
/-- The parameters with one of them true. -/
def quirkJump : Quirks := { Quirks.default with jumpUsesVx := true }

/-- The pixels that are on, row by row, each as (row, column). -/
def pixelsOn (s : State) : List (Nat × Nat) :=
  (List.finRange 32).flatMap fun r => ((List.finRange 64).filter fun c => s.displayOut r c).map fun c => (r.val, c.val)

/-! ### Well-formedness: the words of every rejecting family are refused (30_encoding R70) -/

/-- Every term of `Instr` is well formed by typing, so the check is on words: one ill-formed word per family. -/
theorem test_ill_formed_words :
    [0x0000#16, 0x00E1#16, 0x0FFF#16, 0x5AB1#16, 0x8AB8#16, 0x8ABD#16, 0x8ABF#16, 0x9ABF#16, 0xE09F#16, 0xE0A0#16,
      0xF000#16, 0xF030#16, 0xF075#16].all (fun w => !wordWellFormed w) = true := by decide

theorem test_well_formed_words :
    [0x00E0#16, 0x00EE#16, 0x1ABC#16, 0x5AB0#16, 0x8ABE#16, 0x9AB0#16, 0xD120#16, 0xE09E#16, 0xEFA1#16,
      0xF065#16].all wordWellFormed = true := by decide

theorem test_ill_formed_words_do_not_decode :
    [0x0000#16, 0x5AB1#16, 0x8AB8#16, 0x9ABF#16, 0xE09F#16, 0xF075#16].map decode =
      [.error .family0, .error .family5, .error .family8, .error .family9, .error .familyE, .error .familyF] := by
  decide

theorem test_well_formed_instruction : (Instr.drw 15 15 15).wellFormed = true := by decide

/-! ### Decoding: one word for every constructor, its bits written out from the encoding the rule gives -/

theorem test_decode_control :
    [0b0000000011101110#16, 0b0001101010111100#16, 0b0010111111111111#16, 0b1011111111111110#16].map decode =
      [.ok .ret, .ok (.jmp 0xABC#12), .ok (.call 0xFFF#12), .ok (.jmpV0 0xFFE#12)] := by decide

theorem test_decode_skips :
    [0b0011101001111111#16, 0b0100001100010001#16, 0b0101101010110000#16, 0b1001001001110000#16].map decode =
      [.ok (.seImm 10 0x7F#8), .ok (.sneImm 3 0x11#8), .ok (.seReg 10 11), .ok (.sneReg 2 7)] := by decide

theorem test_decode_loads :
    [0b0110000000000101#16, 0b0111000111111111#16, 0b1000001000110000#16, 0b1100000000001111#16].map decode =
      [.ok (.ldImm 0 0x05#8), .ok (.addImm 1 0xFF#8), .ok (.ldReg 2 3), .ok (.rnd 0 0x0F#8)] := by decide

theorem test_decode_family8 :
    [0b1000101010110001#16, 0b1000101010110010#16, 0b1000101010110011#16, 0b1000101010110100#16, 0b1000101010110101#16,
      0b1000101010110110#16, 0b1000101010110111#16, 0b1000101010111110#16].map decode =
      [.ok (.orReg 10 11), .ok (.andReg 10 11), .ok (.xorReg 10 11), .ok (.addReg 10 11), .ok (.subReg 10 11),
        .ok (.shr 10 11), .ok (.subn 10 11), .ok (.shl 10 11)] := by decide

theorem test_decode_display_and_keys :
    [0b0000000011100000#16, 0b1101000100101111#16, 0b1110000010011110#16, 0b1110111110100001#16,
      0b1111001100001010#16].map decode =
      [.ok .cls, .ok (.drw 1 2 15), .ok (.skp 0), .ok (.sknp 15), .ok (.ldVxK 3)] := by decide

theorem test_decode_timers :
    [0b1111001000000111#16, 0b1111000000010101#16, 0b1111000100011000#16].map decode =
      [.ok (.ldVxDt 2), .ok (.ldDtVx 0), .ok (.ldStVx 1)] := by decide

theorem test_decode_index :
    [0b1010001100000000#16, 0b1111001000011110#16, 0b1111000000101001#16, 0b1111000000110011#16, 0b1111000101010101#16,
      0b1111001001100101#16].map decode =
      [.ok (.ldI 0x300#12), .ok (.addI 2), .ok (.ldF 0), .ok (.ldB 0), .ok (.storeRegs 1), .ok (.loadRegs 2)] := by
  decide

/-- The byte at the lower address is the more significant one: 6005, not 0560 (20_memory R45). -/
theorem test_bytes_big_endian :
    decodeBytes [0x60#8, 0x05#8, 0x12#8] = .ok (.ldImm 0 0x05#8, [0x12#8]) ∧ decodeBytes [0x60#8] = .error .tooShort ∧
    decodeTableWord 16 0x6005 = some (.ldImm 0 0x05#8) ∧ decodeTableWord 16 0x0000 = none := by decide

/-! ### One step per instruction (95_test_vectors, sections 2.2 to 2.8) -/

theorem test_cls : see 0x00E0 { State.reset with display := Vector.replicate 32 (BitVec.allOnes 64) }
    (fun t => (t.display, t.pc, t.reg 15)) = some (Vector.replicate 32 0#64, 0x0202#16, 0#8) := by decide

theorem test_ret : see 0x00EE { start 0x0210#16 [] with sp := 1, stack := State.reset.stack.set 0 0x0206#16 }
    (fun t => (t.sp.val, t.pc, t.entry 0)) = some (0, 0x0206#16, 0x0206#16) := by decide
theorem test_ret_empty : see 0x00EE State.reset (fun t => (t.status, t.pc, t.sp.val)) =
    some (.halted .stackUnderflow, 0x0200#16, 0) := by decide

theorem test_jmp : see 0x1200 (start 0x0202#16 []) (fun t => t.pc) = some 0x0200#16 := by decide

theorem test_call : see 0x2300 { start 0x0FFE#16 [] with sp := 3 } (fun t => (t.entry 3, t.sp.val, t.pc)) =
    some (0x1000#16, 4, 0x0300#16) := by decide
theorem test_call_full : see 0x2200 { State.reset with sp := 16 } (fun t => (t.status, t.pc, t.stack)) =
    some (.halted .stackOverflow, 0x0200#16, State.reset.stack) := by decide

theorem test_jmpV0 : see 0xBFFF (start 0x0200#16 [(0, 0xFF#8)]) (fun t => (t.pc, t.status)) =
    some (0x10FE#16, .running) := by decide
theorem test_jmpV0_quirk : see 0xB2F0 { start 0x0200#16 [(0, 0x10#8), (2, 0x04#8)] with quirks := quirkJump }
    (fun t => t.pc) = some 0x02F4#16 := by decide

theorem test_seImm : see 0x3100 (start 0x0208#16 []) (fun t => t.pc) = some 0x020C#16 := by decide
theorem test_seImm_not : see 0x3100 (start 0x0208#16 [(1, 0x04#8)]) (fun t => t.pc) = some 0x020A#16 := by decide
theorem test_sneImm : see 0x4311 (start 0x0300#16 [(3, 0x10#8)]) (fun t => t.pc) = some 0x0304#16 := by decide
theorem test_sneImm_not : see 0x4310 (start 0x0300#16 [(3, 0x10#8)]) (fun t => t.pc) = some 0x0302#16 := by decide
theorem test_seReg : see 0x5270 (start 0x0220#16 [(2, 0x33#8), (7, 0x33#8)]) (fun t => t.pc) = some 0x0224#16 := by
  decide
theorem test_sneReg : see 0x9270 (start 0x0220#16 [(2, 0x33#8), (7, 0x34#8)]) (fun t => t.pc) = some 0x0224#16 := by
  decide
theorem test_sneReg_not : see 0x9220 (start 0x0220#16 [(2, 0x33#8)]) (fun t => t.pc) = some 0x0222#16 := by decide

theorem test_ldImm : see 0x6005 State.reset (fun t => (t.reg 0, t.pc)) = some (0x05#8, 0x0202#16) := by decide
theorem test_addImm : see 0x7101 (start 0x0200#16 [(1, 0xFF#8)]) (fun t => (t.reg 1, t.reg 15)) = some (0#8, 0#8) := by
  decide
theorem test_ldReg : see 0x8EF0 (start 0x0200#16 [(15, 0x01#8)]) (fun t => (t.reg 14, t.reg 15)) =
    some (1#8, 1#8) := by decide
theorem test_orReg : see 0x8011 (start 0x0200#16 [(0, 0xF0#8), (1, 0x0F#8), (15, 0x55#8)])
    (fun t => (t.reg 0, t.reg 15)) = some (0xFF#8, 0x55#8) := by decide
theorem test_andReg : see 0x8012 (start 0x0200#16 [(0, 0xF0#8), (1, 0x3C#8), (15, 0x55#8)])
    (fun t => (t.reg 0, t.reg 15)) = some (0x30#8, 0x55#8) := by decide
theorem test_xorReg : see 0x8013 (start 0x0200#16 [(0, 0xF0#8), (1, 0x3C#8), (15, 0x55#8)])
    (fun t => (t.reg 0, t.reg 15)) = some (0xCC#8, 0x55#8) := by decide

theorem test_addReg : see 0x8014 (start 0x0200#16 [(0, 0xC8#8), (1, 0x64#8)]) (fun t => (t.reg 0, t.reg 15)) =
    some (0x2C#8, 1#8) := by decide
theorem test_addReg_into_flag : see 0x8F14 (start 0x0200#16 [(15, 0xF0#8), (1, 0x20#8)]) (fun t => t.reg 15) =
    some 1#8 := by decide
theorem test_subReg : see 0x8015 (start 0x0200#16 [(0, 0x05#8), (1, 0x0A#8)]) (fun t => (t.reg 0, t.reg 15)) =
    some (0xFB#8, 0#8) := by decide
theorem test_subReg_equal : see 0x8FF5 (start 0x0200#16 [(15, 0x09#8)]) (fun t => t.reg 15) = some 1#8 := by decide
theorem test_subn : see 0x8017 (start 0x0200#16 [(0, 0xC8#8), (1, 0x64#8)]) (fun t => (t.reg 0, t.reg 15)) =
    some (0x9C#8, 0#8) := by decide
theorem test_shr : see 0x8236 (start 0x0200#16 [(2, 0x81#8), (3, 0x08#8)]) (fun t => (t.reg 2, t.reg 15)) =
    some (0x40#8, 1#8) := by decide
theorem test_shr_quirk : see 0x8236 { start 0x0200#16 [(2, 0x05#8), (3, 0x08#8)] with quirks := quirkShift }
    (fun t => (t.reg 2, t.reg 15, t.reg 3)) = some (0x04#8, 0#8, 0x08#8) := by decide
theorem test_shl : see 0x823E (start 0x0200#16 [(2, 0x81#8)]) (fun t => (t.reg 2, t.reg 15)) =
    some (0x02#8, 1#8) := by decide
theorem test_shl_quirk : see 0x823E { start 0x0200#16 [(3, 0x7F#8), (15, 0x01#8)] with quirks := quirkShift }
    (fun t => (t.reg 2, t.reg 15)) = some (0xFE#8, 0#8) := by decide
/-- For each draw r: C00F gives r & 0x0F. -/
theorem test_rnd : see 0xC00F State.reset (fun t => (t.reg 0, t.draws)) =
    some (Config.freeByte 0 &&& 0x0F#8, 1) := rfl

theorem test_ldI : see 0xAFFF State.reset (fun t => (t.i, t.pc)) = some (0x0FFF#16, 0x0202#16) := by decide
theorem test_addI : see 0xF01E { start 0x0200#16 [(0, 0x01#8)] with i := 0x0FFF#16 } (fun t => (t.i, t.reg 15)) =
    some (0x1000#16, 0#8) := by decide
theorem test_addI_quirk : see 0xFF1E { start 0x0200#16 [(15, 0x02#8)] with i := 0x0FFE#16, quirks := quirkAddI }
    (fun t => (t.i, t.reg 15)) = some (0x1000#16, 1#8) := by decide
theorem test_ldF : see 0xF029 (start 0x0200#16 [(0, 0x1A#8)]) (fun t => t.i) = some 0x0082#16 := by decide
theorem test_ldB : see 0xF033 { start 0x0200#16 [(0, 0xEA#8)] with i := 0x0300#16 }
    (fun t => (t.byteAt 0x300, t.byteAt 0x301, t.byteAt 0x302, t.i)) = some (2#8, 3#8, 4#8, 0x0300#16) := by decide
theorem test_ldB_outside : see 0xF033 { start 0x0200#16 [(0, 0xEA#8)] with i := 0x0FFE#16 }
    (fun t => (t.status, t.byteAt 0xFFE, t.byteAt 0xFFF, t.pc)) = some (.halted .outOfBounds, 0#8, 0#8, 0x0200#16) := by
  decide
theorem test_storeRegs : see 0xF155 { start 0x0200#16 [(0, 0x11#8), (1, 0x22#8), (2, 0x33#8)] with i := 0x0300#16 }
    (fun t => (t.byteAt 0x300, t.byteAt 0x301, t.byteAt 0x302, t.i)) = some (0x11#8, 0x22#8, 0#8, 0x0300#16) := by
  decide
theorem test_storeRegs_outside : see 0xF155 { start 0x0200#16 [(0, 0x77#8)] with i := 0x0FFF#16 }
    (fun t => (t.status, t.byteAt 0xFFF)) = some (.halted .outOfBounds, 0#8) := by decide
theorem test_loadRegs : see 0xF465 { start 0x0200#16 [(5, 0x99#8)] with i := 0x0050#16 }
    (fun t => (t.reg 0, t.reg 1, t.reg 4, t.reg 5)) = some (0xF0#8, 0x90#8, 0xF0#8, 0x99#8) := by decide
theorem test_loadRegs_outside : see 0xF165 { start 0x0200#16 [(0, 0x77#8)] with i := 0x0FFF#16 }
    (fun t => (t.status, t.reg 0)) = some (.halted .outOfBounds, 0x77#8) := by decide

/-- Glyph 0 from column 62, row 30: it wraps on both axes. -/
theorem test_drw_wraps : see 0xD125 { start 0x0200#16 [(1, 62#8), (2, 30#8)] with i := 0x0050#16 }
    (fun t => (pixelsOn t, t.reg 15)) =
    some ([(0, 1), (0, 62), (1, 1), (1, 62), (2, 0), (2, 1), (2, 62), (2, 63), (30, 0), (30, 1), (30, 62), (30, 63),
      (31, 1), (31, 62)], 0#8) := by decide
theorem test_drw_collides : see 0xD121
    { State.reset with i := 0x0050#16, display := State.reset.display.set 0 1#64 }
    (fun t => (pixelsOn t, t.reg 15)) = some ([(0, 1), (0, 2), (0, 3)], 1#8) := by decide

theorem test_skp : see 0xE09E { start 0x0200#16 [(0, 0x15#8)] with keys := latchOf [5] } (fun t => t.pc) =
    some 0x0204#16 := by decide
theorem test_sknp : see 0xE0A1 { start 0x0200#16 [(0, 0x05#8)] with keys := latchOf [5] } (fun t => t.pc) =
    some 0x0202#16 := by decide
theorem test_ldVxK : see 0xF30A { start 0x0210#16 [] with keys := latchOf [9, 7] } (fun t => (t.reg 3, t.pc)) =
    some (0x07#8, 0x0212#16) := by decide
theorem test_ldVxK_waits : see 0xF30A (start 0x0210#16 [(3, 0x55#8)]) (fun t => (t.reg 3, t.pc)) =
    some (0x55#8, 0x0210#16) := by decide
theorem test_ldVxDt : see 0xF207 { State.reset with dt := 0x1E#8 } (fun t => (t.reg 2, t.dt)) =
    some (0x1E#8, 0x1E#8) := by decide
theorem test_ldDtVx : see 0xF015 (start 0x0200#16 [(0, 0x3C#8)]) (fun t => (t.dt, t.st)) = some (0x3C#8, 0#8) := by
  decide
theorem test_ldStVx : see 0xF118 (start 0x0200#16 [(1, 0x02#8)]) (fun t => (t.st, t.dt, t.soundActive)) =
    some (0x02#8, 0#8, true) := by decide

theorem test_tick : (after (step { State.reset with dt := 0x03#8, schedule := [.tick] })).map
    (fun t => (t.dt, t.st)) = some (0x02#8, 0x00#8) := by decide
theorem test_set_pressed : (after (step { State.reset with keys := latchOf [3], schedule := [.setPressed [1, 15]] })).map
    (fun t => (t.key 1, t.key 15, t.key 3)) = some (true, true, false) := by decide
theorem test_reset_loads_the_image : (after (step (haltedWith [.reset [0x60#8, 0x05#8]]))).map
    (fun t => (t.fetch, t.status, t.byteAt 0x202)) = some (some 0x6005#16, .running, 0#8) := by decide
/-- Zero memory is not a no-op: after reset with the empty image the first step halts, code 2. -/
theorem test_zero_word_halts : (after (step State.reset)).map (fun t => (t.statusCode, t.pc)) =
    some (2, 0x0200#16) := by decide

/-! ### Witnesses: for every statement with hypotheses, states and operands that meet them together, one for each clause,
at the bounds of its range -/

theorem witness_DecodedWordIsTheEncoding : decode 0xD12F#16 = .ok (.drw 1 2 15) := by decide

theorem witness_DecoderAcceptsExactlyTheTable :
    wordWellFormed 0xF365#16 = true ∧ decode 0xF365#16 = .ok (.loadRegs 3) ∧ wordWellFormed 0x0FFF#16 = false := by
  decide

/-- The first row and the last. -/
theorem witness_TableRowsAreDisjoint :
    (opcodeTable.getD (0 : Fin 34).val ⟨0, 1⟩).accepts 0x00E0#16 = true ∧
    (opcodeTable.getD (33 : Fin 34).val ⟨0, 1⟩).accepts 0xF365#16 = true := by decide

/-- The four ways of a step; the clauses exclude each other by status and by PC (0xFFE is the last PC to fetch from). -/
theorem witness_StepRunsTheDecodedInstruction :
    (StepActsOn (haltedWith []) (haltedWith []) ∧ (haltedWith []).status = .halted .invalidOpcode) ∧
    (StepActsOn (start 0x0FFF#16 []) (start 0x0FFF#16 []) ∧ (start 0x0FFF#16 []).status = .running ∧
      0xFFF < (start 0x0FFF#16 []).pc.toNat + 1) ∧
    (StepActsOn { start 0x0FFE#16 [] with schedule := [.step] } (start 0x0FFE#16 []) ∧
      (start 0x0FFE#16 []).status = .running ∧ (start 0x0FFE#16 []).pc.toNat + 1 ≤ 0xFFF ∧
      decode (wordOfBytes ((start 0x0FFE#16 []).byteAt 0xFFE) ((start 0x0FFE#16 []).byteAt 0xFFF)) = .error .family0) ∧
    (StepActsOn { start 0x0055#16 [] with schedule := [.step] } (start 0x0055#16 []) ∧
      (start 0x0055#16 []).status = .running ∧ (start 0x0055#16 []).pc.toNat + 1 ≤ 0xFFF ∧
      decode (wordOfBytes ((start 0x0055#16 []).byteAt 0x55) ((start 0x0055#16 []).byteAt 0x56)) =
        .ok (.call 0x060#12)) :=
  ⟨⟨.inl ⟨rfl, rfl⟩, rfl⟩, ⟨.inl ⟨rfl, rfl⟩, rfl, by decide⟩, ⟨.inr ⟨[], rfl, rfl⟩, rfl, by decide, by decide⟩,
    .inr ⟨[], rfl, rfl⟩, rfl, by decide, by decide⟩

theorem witness_FetchIsBigEndianAndBounded :
    (start 0x0FFE#16 []).pc.toNat + 1 ≤ 0xFFF ∧ (start 0x0FFF#16 []).pc.toNat + 1 > 0xFFF := by decide

theorem witness_FetchOutsideMemoryHalts :
    (StepActsOn (start 0x0FFF#16 []) (start 0x0FFF#16 []) ∧ (start 0x0FFF#16 []).status = .running ∧
      (start 0x0FFF#16 []).pc.toNat ≥ 0xFFF) ∧
    (StepActsOn { start 0x0FFE#16 [] with schedule := [.step, .tick] } { start 0x0FFE#16 [] with schedule := [.tick] } ∧
      (start 0x0FFE#16 []).pc.toNat ≤ 0xFFE) :=
  ⟨⟨.inl ⟨rfl, rfl⟩, rfl, by decide⟩, .inr ⟨[.tick], rfl, rfl⟩, by decide⟩

theorem witness_UnlistedWordHalts :
    StepActsOn State.reset State.reset ∧ State.reset.status = .running ∧ State.reset.fetch = some 0x0000#16 ∧
    ∀ r ∈ opcodeTable, r.accepts 0x0000#16 = false :=
  ⟨.inl ⟨rfl, rfl⟩, rfl, by decide, by decide⟩

/-- Every row of the error table at the first value that raises, and the last value that does not. -/
theorem witness_ErrorsAreRaisedExactlyAsTabled :
    raises (.drw 1 2 15) { State.reset with i := 0x0FF2#16 } = some .outOfBounds ∧
    raises (.drw 1 2 15) { State.reset with i := 0x0FF1#16 } = none ∧
    raises (.drw 1 2 0) { State.reset with i := 0xFFFF#16 } = none ∧
    raises (.ldB 0) { State.reset with i := 0x0FFE#16 } = some .outOfBounds ∧
    raises (.ldB 0) { State.reset with i := 0x0FFD#16 } = none ∧
    raises (.storeRegs 15) { State.reset with i := 0x0FF1#16 } = some .outOfBounds ∧
    raises (.loadRegs 15) { State.reset with i := 0x0FF0#16 } = none ∧
    raises (.call 0x200#12) { State.reset with sp := 16 } = some .stackOverflow ∧
    raises (.call 0x200#12) { State.reset with sp := 15 } = none ∧
    raises .ret State.reset = some .stackUnderflow ∧ raises .ret { State.reset with sp := 1 } = none := by decide

/-- One byte more than the longest image, the longest image, and no reset at all. -/
theorem witness_EveryEventButALongResetAnswers :
    { State.reset with schedule := [.reset (List.replicate 3585 0x01#8)] }.schedule =
      .reset (List.replicate 3585 0x01#8) :: [] ∧
    (List.replicate 3585 0x01#8).length > 3584 ∧
    (∀ image rest, { State.reset with schedule := [.reset (List.replicate 3584 0x01#8)] }.schedule =
      .reset image :: rest → image.length ≤ 3584) ∧
    (∀ image rest, State.reset.schedule = .reset image :: rest → image.length ≤ 3584) := by
  refine ⟨rfl, by rw [List.length_replicate]; decide, ?_, by simp [State.reset]⟩
  intro image rest h
  injection h with h _
  injection h with h
  rw [← h, List.length_replicate]

theorem witness_HaltedCoreIgnoresSteps :
    (haltedWith []).status = .halted .invalidOpcode ∧ (haltedWith []).schedule = [] ∧
    (haltedWith [.step]).schedule = .step :: [] ∧ (haltedWith [.tick, .step]).schedule = .tick :: [.step] ∧
    (haltedWith [.setPressed [0, 15]]).schedule = .setPressed [0, 15] :: [] := by decide

/-- Both timers at 0 and above. -/
theorem witness_TickDecrementsEachTimer :
    { State.reset with dt := 0xFF#8, schedule := [.tick] }.schedule = .tick :: [] ∧
    { State.reset with dt := 0xFF#8, schedule := [.tick] }.dt ≠ 0 ∧
    { State.reset with dt := 0xFF#8, schedule := [.tick] }.st = 0 ∧
    { State.reset with st := 0x01#8, schedule := [.tick] }.dt = 0 ∧
    { State.reset with st := 0x01#8, schedule := [.tick] }.st ≠ 0 := by decide

theorem witness_TicksCountDownToZero :
    { State.reset with dt := 0x02#8, schedule := [.tick, .tick, .tick] }.schedule = List.replicate 3 .tick := by decide

theorem witness_SetPressedReplacesTheLatch :
    { State.reset with keys := latchOf [3], schedule := [.setPressed [0, 15], .step] }.schedule =
      .setPressed [0, 15] :: [.step] := by decide

/-- The empty image and the longest one; a register, a stack entry, an image byte and an address of each clause. -/
theorem witness_ResetReinitialisesEverything :
    (haltedWith [.reset [], .tick]).schedule = .reset [] :: [.tick] ∧ ([] : List Byte).length ≤ 3584 ∧
    (haltedWith [.reset (List.replicate 3584 0x01#8)]).schedule = .reset (List.replicate 3584 0x01#8) :: [] ∧
    (List.replicate 3584 0x01#8).length ≤ 3584 :=
  ⟨rfl, by decide, rfl, by rw [List.length_replicate]⟩

theorem witness_PlacedWordRunsNext :
    decodeTableWord 16 0xF365 = some (.loadRegs 3) ∧ decodeTableWord 16 0x00E0 = some .cls := by decide

theorem witness_ReturnPopsIntoPc :
    { State.reset with sp := 1 }.sp.val = (0 : Fin 16).val + 1 ∧
    { State.reset with sp := 16 }.sp.val = (15 : Fin 16).val + 1 ∧ State.reset.sp = 0 := by decide

theorem witness_CallPushesTheReturnAddress :
    State.reset.sp.val = (0 : Fin 16).val ∧ { State.reset with sp := 15 }.sp.val = (15 : Fin 16).val ∧
    { State.reset with sp := 16 }.sp = 16 := by decide

theorem witness_CallThenReturnRestoresPc : { State.reset with sp := 15 }.sp.val < 16 := by decide

theorem witness_FirstReturnUnderflows :
    State.reset.sp = 0 ∧ ([0x12#8, 0x00#8] : List Byte).length + 2 ≤ 3584 ∧
    (haltedWith [.reset [0x00#8, 0xEE#8, 0x12#8, 0x00#8], .step]).schedule =
      .reset (0x00#8 :: 0xEE#8 :: [0x12#8, 0x00#8]) :: .step :: [] := by decide

theorem witness_JumpWithOffsetAddsTheSelectedRegister :
    (0 : RegNum).val = (if State.reset.quirks.jumpUsesVx then (0x2F0#12).toNat / 256 else 0) ∧
    (15 : RegNum).val =
      (if { State.reset with quirks := quirkJump }.quirks.jumpUsesVx then (0xFFF#12).toNat / 256 else 0) := by decide

theorem witness_OtherInstructionsAdvanceByTwo :
    setsPc (.loadRegs 15) = false ∧ raises (.loadRegs 15) { State.reset with i := 0x0FF0#16 } = none ∧
    setsPc .cls = false ∧ raises .cls State.reset = none := by decide

/-- Two of the six, with x = 15. -/
theorem witness_PlainRegisterWrites :
    let s := start 0x0200#16 [(15, 0xFF#8), (3, 0x7A#8)]
    ∀ p ∈ [(Instr.addImm 15 0xFF#8, 0xFE#8), (Instr.ldReg 15 3, 0x7A#8)],
      p ∈ [(Instr.ldImm 15 0xFF#8, 0xFF#8),
        (.addImm 15 0xFF#8, BitVec.ofNat 8 (((s.reg 15).toNat + (0xFF#8 : Byte).toNat) % 256)),
        (.ldReg 15 3, s.reg 3), (.orReg 15 3, s.reg 15 ||| s.reg 3), (.andReg 15 3, s.reg 15 &&& s.reg 3),
        (.xorReg 15 3, s.reg 15 ^^^ s.reg 3)] := by decide

/-- The operand that each value of the parameter selects. -/
theorem witness_ShiftsMoveOneBitIntoVf :
    (0x81#8 : Byte) = (if (start 0x0200#16 [(2, 0x81#8), (3, 0x08#8)]).quirks.shiftUsesVy then 0x08#8
      else (start 0x0200#16 [(2, 0x81#8), (3, 0x08#8)]).reg 2) ∧
    (0x08#8 : Byte) = (if { start 0x0200#16 [(3, 0x08#8)] with quirks := quirkShift }.quirks.shiftUsesVy then
      { start 0x0200#16 [(3, 0x08#8)] with quirks := quirkShift }.reg 3 else 0x00#8) := by decide

theorem witness_AddToIndexWrapsAtSixteenBits :
    { State.reset with quirks := quirkAddI }.quirks.addiSetsVf = true ∧ State.reset.quirks.addiSetsVf = false := by
  decide

theorem witness_RandomMasksAFreshFreeByte : (0x0F#8 : Byte).getLsbD 4 = false := by decide

/-- The last place each block fits. -/
theorem witness_memory_ranges :
    { State.reset with i := 0x0FFD#16 }.i.toNat + 2 ≤ 0xFFF ∧
    { State.reset with i := 0x0FF0#16 }.i.toNat + (15 : RegNum).val ≤ 0xFFF ∧
    { State.reset with i := 0x0FFF#16 }.i.toNat + (0 : RegNum).val ≤ 0xFFF := by decide

/-- The state a store of V[0] and V[1] leaves is one from which the load is taken. -/
theorem witness_StoredBlockLoadsBack :
    { State.reset with i := 0x0FFE#16 }.i.toNat + (1 : RegNum).val ≤ 0xFFF ∧
    ∃ t, exec (.storeRegs 1) { State.reset with i := 0x0FFE#16 } = .next t ∧ (∀ a, t.byteAt a = t.byteAt a) ∧
      t.i = t.i := ⟨by decide, _, rfl, fun _ => rfl, rfl⟩

theorem witness_StoreIsSeenByTheNextFetch :
    1 ≤ (1 : RegNum).val ∧ { State.reset with i := 0x0202#16 }.i = { State.reset with i := 0x0202#16 }.pc + 2 ∧
    { State.reset with i := 0x0202#16 }.i.toNat + (1 : RegNum).val ≤ 0xFFF := by decide

/-- A draw of no rows from outside memory, and the last place fifteen rows fit; a pixel under the sprite that is on,
one that is off. -/
theorem witness_DrawXorsTheSpriteWithWrap :
    ((0 : Fin 16).val = 0 ∨ { State.reset with i := 0xFFFF#16 }.i.toNat + (0 : Fin 16).val - 1 ≤ 0xFFF) ∧
    ((15 : Fin 16).val = 0 ∨ { State.reset with i := 0x0FF1#16 }.i.toNat + (15 : Fin 16).val - 1 ≤ 0xFFF) ∧
    SpriteBit { State.reset with i := 0x0050#16, display := State.reset.display.set 0 1#64 } 1 2 5 0 0 ∧
    { State.reset with i := 0x0050#16, display := State.reset.display.set 0 1#64 }.displayOut 0 0 = true ∧
    (∀ r c, { State.reset with i := 0x0050#16 }.displayOut r c = false) := by
  refine ⟨by decide, by decide, ⟨0, by decide, 0, by decide, by decide, by decide, by decide⟩, by decide, ?_⟩
  decide

/-- Registers that are not VF, with a pixel off under the sprite; and VF as the column, 0 before and after the first
draw. -/
theorem witness_DrawingTwiceRestoresTheDisplay :
    (1 : RegNum) ≠ 15 ∧ (2 : RegNum) ≠ 15 ∧
    (∃ t, exec (.drw 15 2 5) { State.reset with i := 0x0050#16 } = .next t ∧ t.reg 15 = State.reset.reg 15 ∧
      t.reg 2 = State.reset.reg 2) ∧
    ((5 : Fin 16).val = 0 ∨ { State.reset with i := 0x0050#16 }.i.toNat + (5 : Fin 16).val - 1 ≤ 0xFFF) ∧
    SpriteBit { State.reset with i := 0x0050#16 } 1 2 5 0 0 ∧
    { State.reset with i := 0x0050#16 }.displayOut 0 0 = false :=
  ⟨by decide, by decide, ⟨_, rfl, by decide, by decide⟩, by decide,
    ⟨0, by decide, 0, by decide, by decide, by decide, by decide⟩, by decide⟩

/-- A low nibble of 0 and of 15, the high nibble playing no part. -/
theorem witness_KeySkipsTestTheLatch :
    (0 : Key).val = ((start 0x0200#16 [(0, 0x10#8)]).reg 0).toNat % 16 ∧
    (15 : Key).val = ((start 0x0200#16 [(0, 0xFF#8)]).reg 0).toNat % 16 := by decide

/-- No key down; keys 7 and 9 down, 7 the least; key 0 down. -/
theorem witness_KeyWaitHoldsUntilAKeyIsDown :
    (∀ k, State.reset.key k = false) ∧
    ({ State.reset with keys := latchOf [9, 7] }.key 7 = true ∧
      ∀ j, j < (7 : Key) → { State.reset with keys := latchOf [9, 7] }.key j = false) ∧
    ({ State.reset with keys := latchOf [0] }.key 0 = true ∧
      ∀ j, j < (0 : Key) → { State.reset with keys := latchOf [0] }.key j = false) := by decide

/-- A state that meets the invariant, with a step to a next state. -/
theorem witness_EveryStepKeepsTheInvariant : State.reset.Inv ∧ ∃ t, step State.reset = .next t :=
  ⟨⟨by decide, by decide, by decide⟩, _, rfl⟩

theorem witness_EachAgentWritesOnlyItsParts :
    (∃ t, exec (.ldDtVx 0) (start 0x0200#16 [(0, 0x3C#8)]) = .next t ∧ t.dt ≠ (start 0x0200#16 [(0, 0x3C#8)]).dt) ∧
    (∃ t, exec (.ldStVx 0) (start 0x0200#16 [(0, 0x3C#8)]) = .next t ∧ t.st ≠ (start 0x0200#16 [(0, 0x3C#8)]).st) ∧
    (∃ t, step (haltedWith [.tick]) = .next t) ∧ (∃ t, step (haltedWith [.setPressed [5]]) = .next t) :=
  ⟨⟨_, rfl, by decide⟩, ⟨_, rfl, by decide⟩, ⟨_, rfl⟩, ⟨_, rfl⟩⟩

/-- One instruction for each clause, from a state where it changes the part the clause speaks of. -/
theorem witness_EachPartHasItsWriters :
    (∃ t, exec (.ldImm 15 1#8) State.reset = .next t ∧ t.reg 15 ≠ State.reset.reg 15) ∧
    (∃ t, exec (.ldI 1#12) State.reset = .next t ∧ t.i ≠ State.reset.i ∧ t.pc ≠ State.reset.pc) ∧
    (∃ t, exec (.ldDtVx 0) (start 0x0200#16 [(0, 1#8)]) = .next t ∧ t.dt ≠ (start 0x0200#16 [(0, 1#8)]).dt) ∧
    (∃ t, exec (.ldStVx 0) (start 0x0200#16 [(0, 1#8)]) = .next t ∧ t.st ≠ (start 0x0200#16 [(0, 1#8)]).st) ∧
    (∃ t, exec .ret State.reset = .next t ∧ t.status ≠ State.reset.status) ∧
    (∃ t, exec (.call 1#12) State.reset = .next t ∧ t.sp ≠ State.reset.sp ∧ t.stack ≠ State.reset.stack) ∧
    (∃ t, exec (.ldB 0) (start 0x0200#16 [(0, 1#8)]) = .next t ∧ t.mem ≠ (start 0x0200#16 [(0, 1#8)]).mem) ∧
    (∃ t, exec (.drw 0 0 5) { State.reset with i := 0x0050#16 } = .next t ∧ t.display ≠ State.reset.display) ∧
    (∃ t, exec (.rnd 0 1#8) State.reset = .next t ∧ t.draws ≠ State.reset.draws) :=
  ⟨⟨_, rfl, by decide⟩, ⟨_, rfl, by decide, by decide⟩, ⟨_, rfl, by decide⟩, ⟨_, rfl, by decide⟩,
    ⟨_, rfl, by decide⟩, ⟨_, rfl, by decide, by decide⟩, ⟨_, rfl, by decide⟩, ⟨_, rfl, by decide⟩,
    ⟨_, rfl, by decide⟩⟩

theorem witness_FlagsAreZeroOrOne :
    (∃ t, exec (.shr 1 2) State.reset = .next t) ∧ raises (.shr 1 2) State.reset = none ∧
    (∃ t, exec (.drw 0 0 5) State.reset = .next t) ∧ raises (.drw 0 0 5) State.reset = none ∧
    (∃ t, exec (.addI 1) { State.reset with quirks := quirkAddI } = .next t) ∧
    raises (.addI 1) { State.reset with quirks := quirkAddI } = none ∧ quirkAddI.addiSetsVf = true :=
  ⟨⟨_, rfl⟩, rfl, ⟨_, rfl⟩, by decide, ⟨_, rfl⟩, rfl, rfl⟩

/-- Two states that differ in the entry a return has just left behind. -/
theorem witness_PoppedEntriesAreNeverRead :
    SameButResidue { State.reset with sp := 1 }
      { State.reset with sp := 1, stack := State.reset.stack.set 1 0x0206#16 } ∧
    { State.reset with sp := 1 }.stack ≠ State.reset.stack.set 1 0x0206#16 ∧
    ∃ t, step { State.reset with sp := 1 } = .next t :=
  ⟨⟨rfl, by decide⟩, by decide, _, rfl⟩

theorem witness_SoundTimerIsNeverRead : ∃ t, exec (.ldStVx 0) { State.reset with st := 5#8 } = .next t := ⟨_, rfl⟩

/-- The three stable conditions, each at a state of its own. -/
theorem witness_StableConditionsAreFixedPoints :
    ((State.reset.withFetchWord 16 0x1200).schedule = [] ∧ (State.reset.withFetchWord 16 0x1200).Idle) ∧
    ((State.reset.withFetchWord 16 0xF30A).schedule = [] ∧ (State.reset.withFetchWord 16 0xF30A).Waiting) ∧
    ((haltedWith []).schedule = [] ∧ (haltedWith []).Halted) :=
  ⟨⟨rfl, 0x200#12, ⟨0x1200#16, by decide, by decide⟩, by decide⟩,
    ⟨rfl, ⟨3, 0xF30A#16, by decide, by decide⟩, by decide⟩, rfl, .invalidOpcode, rfl⟩

theorem witness_IdleLoopIsSafeForEver :
    (State.reset.withFetchWord 16 0x1200).schedule = [] ∧ (State.reset.withFetchWord 16 0x1200).status = .running ∧
    (State.reset.withFetchWord 16 0x1200).Idle :=
  ⟨rfl, rfl, 0x200#12, ⟨0x1200#16, by decide, by decide⟩, by decide⟩

/-- The lowest and the highest address listed. -/
theorem witness_CanonicalMemoriesAreDeterminedByTheirBytes :
    Memory.wf [(0x000, 0x01#8), (0xFFF, 0xFF#8)] = true ∧
    ∀ a, Memory.byteAt [(0x000, 0x01#8), (0xFFF, 0xFF#8)] a = Memory.byteAt [(0x000, 0x01#8), (0xFFF, 0xFF#8)] a :=
  ⟨by decide, fun _ => rfl⟩

end Sys2Proof.Tests
end

section
/-! The proofs of the control-transfer statements on the stack: `RET` and `CALL` (40_control_flow R81, R83; 60_exceptions
R156, R157). -/

namespace Sys2Proof.Machine

variable {P : Part → Prop}

/-! ### What the stack instructions touch -/

theorem touches_setSpPc (s : State) (n : Fin 17) (a : Word) (h : P .sp) :
    OnlyTouches P s { s with sp := n, pc := a } :=
  ⟨fun _ _ => rfl, fun _ => rfl, fun c => absurd h c, fun _ _ => rfl, fun _ => rfl, fun _ => rfl, fun _ _ => rfl,
    fun _ _ _ => rfl, fun _ _ => rfl, fun _ => rfl, fun _ => rfl, rfl, rfl⟩

/-- Reading an entry after one entry was stored, whatever was done to SP and PC with it. -/
theorem State.entry_setStackSpPc (s : State) (j k : Fin 16) (a b : Word) (n : Fin 17) :
    { s with stack := s.stack.set j.val a, sp := n, pc := b }.entry k = if k = j then a else s.entry k := by
  simp only [State.entry, Vector.getElem_set, eq_comm (a := k), Fin.ext_iff]

theorem touches_setStackSpPc (s : State) (j : Fin 16) (a b : Word) (n : Fin 17) (hsp : P .sp) (hj : P (.entry j)) :
    OnlyTouches P s { s with stack := s.stack.set j.val a, sp := n, pc := b } := by
  refine ⟨fun _ _ => rfl, fun _ => rfl, fun c => absurd hsp c, fun k hk => ?_, fun _ => rfl, fun _ => rfl,
    fun _ _ => rfl, fun _ _ _ => rfl, fun _ _ => rfl, fun _ => rfl, fun _ => rfl, rfl, rfl⟩
  have hne : k ≠ j := fun e => hk (e ▸ hj)
  rw [State.entry_setStackSpPc, if_neg hne]

/-- A fatal error answers a next state, halted with its kind, PC and everything else as before (R152). -/
theorem raise_halts (k : Fault) (s : State) :
    ∃ t, raise k s = .next t ∧ t.status = .halted k ∧ t.pc = s.pc ∧ OnlyTouches (· = .status) s t :=
  ⟨s.setStatus (.halted k), rfl, rfl, rfl, touches_setStatus s (.halted k) rfl⟩

/-! ### The two endings of each instruction -/

theorem execRet_of_sp_succ (s : State) (j : Fin 16) (hj : s.sp.val = j.val + 1) :
    exec .ret s = .next { s with sp := ⟨j.val, by omega⟩, pc := s.entry j } := by
  rcases execRet_cases s with ⟨i, hi, e⟩ | ⟨h0, -⟩
  · obtain rfl : i = j := Fin.ext (by omega)
    exact e
  · simp [h0] at hj

theorem execRet_of_empty (s : State) (h : s.sp = 0) : exec .ret s = raise .stackUnderflow s := by
  rcases execRet_cases s with ⟨i, hi, -⟩ | ⟨-, e⟩
  · simp [h] at hi
  · exact e

theorem execCall_of_room (nnn : Addr12) (s : State) (j : Fin 16) (hj : s.sp.val = j.val) :
    exec (.call nnn) s = .next { s with
      stack := s.stack.set j.val (s.pc + 2#16), sp := ⟨j.val + 1, by omega⟩, pc := zext12 nnn } := by
  rcases execCall_cases nnn s with ⟨i, hi, e⟩ | ⟨h16, -⟩
  · obtain rfl : i = j := Fin.ext (by omega)
    exact e
  · have : s.sp.val = 16 := congrArg Fin.val h16
    omega

theorem execCall_of_full (nnn : Addr12) (s : State) (h : s.sp = 16) :
    exec (.call nnn) s = raise .stackOverflow s := by
  rcases execCall_cases nnn s with ⟨i, hi, -⟩ | ⟨-, e⟩
  · have : s.sp.val = 16 := congrArg Fin.val h
    omega
  · exact e

/-! ### The word and the target of `CALL` -/

theorem zext12_toNat (nnn : Addr12) : (zext12 nnn).toNat = nnn.toNat :=
  BitVec.toNat_setWidth_of_le (by decide)

theorem decode_encodeNNN_call (nnn : Addr12) : decode (encodeNNN 0b0010#4 nnn) = .ok (.call nnn) := by
  simp [decode]

/-! ### The statements -/

/-- Settles O19: the two ends of `RET`, at SP = j + 1 and at SP = 0, each with its frame. -/
theorem returnPopsIntoPc : Obligations.ReturnPopsIntoPc := by
  refine ⟨rfl, fun s => ⟨fun j hj => ?_, fun h => ?_⟩⟩
  · exact ⟨_, execRet_of_sp_succ s j hj, rfl, rfl, touches_setSpPc s _ _ rfl⟩
  · rw [execRet_of_empty s h]
    exact raise_halts .stackUnderflow s

/-- Settles O20: the two ends of `CALL`, at SP = j < 16 and at SP = 16, each with its frame. -/
theorem callPushesTheReturnAddress : Obligations.CallPushesTheReturnAddress := by
  refine fun nnn s => ⟨decode_encodeNNN_call nnn, fun j hj => ?_, fun h => ?_⟩
  · refine ⟨_, execCall_of_room nnn s j hj, zext12_toNat nnn, ?_, rfl,
      touches_setStackSpPc s j _ _ _ (.inl rfl) (.inr rfl)⟩
    rw [State.entry_setStackSpPc, if_pos rfl]
    rfl
  · rw [execCall_of_full nnn s h]
    exact raise_halts .stackOverflow s

end Sys2Proof.Machine
end

section
/-! The proofs of the statements on how a step runs and on the return with an empty stack (60_exceptions R150, R157). -/

namespace Sys2Proof.Machine

variable {s t u : State}

/-! ### The fetch on either side of its bound -/

theorem State.fetch_of_pc_le (h : s.pc.toNat + 1 ≤ 0xFFF) :
    s.fetch = some (wordOfBytes (s.byteAt s.pc.toNat) (s.byteAt (s.pc.toNat + 1))) := by
  rcases s.fetch_cases with ⟨-, e⟩ | ⟨hpc, -⟩
  · exact e
  · omega

theorem State.fetch_of_lt_pc (h : 0xFFF < s.pc.toNat + 1) : s.fetch = none := by
  rcases s.fetch_cases with ⟨hpc, -⟩ | ⟨-, e⟩
  · omega
  · exact e

/-! ### The cycle, an equation per way it can go -/

theorem stepCycle_of_halted {k : Fault} (hs : s.status = .halted k) : stepCycle s = .next s := by
  simp only [stepCycle, hs]

theorem stepCycle_of_fetch_none (hs : s.status = .running) (hf : s.fetch = none) :
    stepCycle s = raise .outOfBounds s := by
  simp only [stepCycle, hs, hf]

theorem stepCycle_of_decode_error {op : Word} {r : Reject} (hs : s.status = .running) (hf : s.fetch = some op)
    (hd : decode op = .error r) : stepCycle s = raise .invalidOpcode s := by
  simp only [stepCycle, hs, hf, hd]

theorem stepCycle_of_decode_ok {op : Word} {i : Instr} (hs : s.status = .running) (hf : s.fetch = some op)
    (hd : decode op = .ok i) : stepCycle s = exec i s := by
  simp only [stepCycle, hs, hf, hd]

/-! ### Scheduled events and runs -/

theorem step_of_schedule_cons {e : Event} {rest : List Event} (h : s.schedule = e :: rest) :
    step s = applyEvent e { s with schedule := rest } := by
  simp only [step, nextEvent, h]

theorem run_two_of_steps (hst : step s = .next t) (htu : step t = .next u) :
    Host.Core.run Sys2Proof.core 2 s = .next u := by
  simp only [Host.Core.run, Sys2Proof.core, hst, htu]

/-- A step at the word 00EE with an empty stack raises StackUnderflow (R157). -/
theorem step_of_ret_empty (h : StepActsOn s u) (hrun : u.status = .running) (hf : u.fetch = some 0x00EE#16)
    (hsp : u.sp = 0) : step s = raise .stackUnderflow u := by
  rw [step_of_actsOn h, stepCycle_of_decode_ok hrun hf rfl, execRet_of_empty u hsp]

/-! ### What a reset leaves -/

/-- An image that fits leaves a running core at 0x200 with an empty stack, the image in memory and the schedule as it
was (R180, R181). -/
theorem resetWith_of_length_le {image : List Byte} (h : image.length ≤ 3584) (s : State) :
    ∃ t, resetWith image s = .next t ∧ t.status = .running ∧ t.pc = 0x0200#16 ∧ t.sp = 0 ∧
      t.mem = State.reset.mem.storeFrom 0x200 image ∧ t.schedule = s.schedule := by
  rcases resetWith_cases image s with ⟨-, e⟩ | ⟨hlt, -⟩
  · exact ⟨_, e, rfl, rfl, rfl, rfl, rfl⟩
  · omega

/-- The first two bytes of a loaded image are the word at the reset value of PC. -/
theorem fetch_of_image {hi lo : Byte} {image : List Byte} {m : Memory} (hpc : s.pc = 0x0200#16)
    (hmem : s.mem = m.storeFrom 0x200 (hi :: lo :: image)) : s.fetch = some (wordOfBytes hi lo) := by
  have hhi : s.byteAt 0x200 = hi := by
    rw [State.byteAt, hmem, Memory.byteAt_storeFrom, if_pos (by simp)]
    rfl
  have hlo : s.byteAt (0x200 + 1) = lo := by
    rw [State.byteAt, hmem, Memory.byteAt_storeFrom, if_pos (by simp; omega)]
    rfl
  have hn : s.pc.toNat = 0x200 := by rw [hpc]; rfl
  rw [State.fetch_of_pc_le (by omega), hn, hhi, hlo]

/-! ### The statements -/

/-- Settles O6: the step is the cycle on `u`, which goes one of four ways by status, PC and decode result. -/
theorem stepRunsTheDecodedInstruction : Obligations.StepRunsTheDecodedInstruction := by
  intro s u hact
  rw [step_of_actsOn hact]
  refine ⟨fun k => stepCycle_of_halted, fun hs hpc => ?_, fun hs hpc => ⟨fun r hd => ?_, fun i hd => ?_⟩⟩
  · exact stepCycle_of_fetch_none hs (State.fetch_of_lt_pc hpc)
  · exact stepCycle_of_decode_error hs (State.fetch_of_pc_le hpc) hd
  · exact stepCycle_of_decode_ok hs (State.fetch_of_pc_le hpc) hd

/-- Settles O22: the reset leaves SP = 0 and 00EE at PC = 0x200, so the step after it is a `RET` with nothing to pop. -/
theorem firstReturnUnderflows : Obligations.FirstReturnUnderflows := by
  refine ⟨execRet_of_empty, fun s image rest hlen hsched => ?_⟩
  obtain ⟨t, hreset, hrun, hpc, hsp, hmem, hrest⟩ :=
    resetWith_of_length_le (image := 0x00#8 :: 0xEE#8 :: image) hlen { s with schedule := .step :: rest }
  have hfirst : step s = .next t := (step_of_schedule_cons hsched).trans hreset
  have hacts : StepActsOn t { t with schedule := rest } := .inr ⟨rest, hrest, rfl⟩
  have hsecond := step_of_ret_empty hacts hrun (fetch_of_image hpc hmem) hsp
  exact ⟨_, run_two_of_steps hfirst hsecond, rfl, hpc⟩

end Sys2Proof.Machine
end

section
/-! The proofs of the statements on the encoding (30_encoding R61 to R70): the decoder inverts the encoder and the encoder
the decoder, and both agree with the mask and match table. -/

namespace Sys2Proof

variable {op : Word} {i : Instr} {f n : BitVec 4} {kk : Byte}

/-! ### Decode after encode -/

theorem decode_encode (i : Instr) : decode (encode i) = .ok i := by
  cases i
  case cls => rfl
  case ret => rfl
  all_goals simp [encode, decode, decodeFamily8, decodeFamilyE, decodeFamilyF]

theorem row_mem_opcodeTable (i : Instr) : i.row ∈ opcodeTable := by
  cases i <;> exact List.contains_iff_mem.1 rfl

/-! ### Encode after decode: each format puts the fields of a word back together -/

theorem encodeNNN_of_fields (hf : fieldFam op = f) : encodeNNN f (fieldNNN op) = op := by
  subst hf
  exact (BitVec.extractLsb'_append_extractLsb'_eq_extractLsb' rfl).trans (extract_all op)

theorem encodeXKK_of_fields (hf : fieldFam op = f) (hk : fieldKK op = kk) : encodeXKK f (fieldX op) kk = op := by
  subst hf hk
  have hfx : fieldFam op ++ (BitVec.ofFin (fieldX op) : BitVec 4) = op.extractLsb' 8 8 :=
    BitVec.extractLsb'_append_extractLsb'_eq_extractLsb' rfl
  rw [encodeXKK, hfx]
  exact (BitVec.extractLsb'_append_extractLsb'_eq_extractLsb' rfl).trans (extract_all op)

theorem encodeXYN_of_fields (hf : fieldFam op = f) (hn : fieldSub op = n) :
    encodeXYN f (fieldX op) (fieldY op) n = op := by
  have hyn : (BitVec.ofFin (fieldY op) : BitVec 4) ++ fieldSub op = fieldKK op :=
    BitVec.extractLsb'_append_extractLsb'_eq_extractLsb' rfl
  subst hn
  refine Eq.trans ?_ (encodeXKK_of_fields hf rfl)
  rw [encodeXYN, encodeXKK, ← hyn]
  exact BitVec.append_assoc

theorem encode_of_decodeFamily0 (h : decodeFamily0 op = .ok i) : encode i = op := by
  unfold decodeFamily0 at h
  split at h <;> cases h <;> rfl

theorem encode_of_decodeFamily8 (hf : fieldFam op = 0x8#4) (h : decodeFamily8 op = .ok i) : encode i = op := by
  unfold decodeFamily8 at h
  split at h <;> cases h
  all_goals next hn => exact encodeXYN_of_fields hf hn

theorem encode_of_decodeFamilyE (hf : fieldFam op = 0xE#4) (h : decodeFamilyE op = .ok i) : encode i = op := by
  unfold decodeFamilyE at h
  split at h <;> cases h
  all_goals next hk => exact encodeXKK_of_fields hf hk

theorem encode_of_decodeFamilyF (hf : fieldFam op = 0xF#4) (h : decodeFamilyF op = .ok i) : encode i = op := by
  unfold decodeFamilyF at h
  split at h <;> cases h
  all_goals next hk => exact encodeXKK_of_fields hf hk

/-- Branch by branch of the decoder, which tests the family: `h_1` is family 0 and `h_16` family F. -/
theorem encode_of_decode (h : decode op = .ok i) : encode i = op := by
  unfold decode at h
  split at h
  case h_1 => exact encode_of_decodeFamily0 h
  case h_6 hf =>
    split at h <;> cases h
    next hn => exact encodeXYN_of_fields hf hn
  case h_9 hf => exact encode_of_decodeFamily8 hf h
  case h_10 hf =>
    split at h <;> cases h
    next hn => exact encodeXYN_of_fields hf hn
  case h_14 hf => cases h; exact encodeXYN_of_fields hf rfl
  case h_15 hf => exact encode_of_decodeFamilyE hf h
  case h_16 =>
    refine encode_of_decodeFamilyF ?_ h
    simp only [imp_false] at *
    bv_omega
  case h_2 hf | h_3 hf | h_11 hf | h_12 hf => cases h; exact encodeNNN_of_fields hf
  case h_4 hf | h_5 hf | h_7 hf | h_8 hf | h_13 hf => cases h; exact encodeXKK_of_fields hf rfl

/-! ### The mask and match table -/

theorem row_accepts_encode : ∀ i : Instr, i.row.accepts (encode i) = true
  | .cls => Laws.EncodingRow.cls
  | .ret => Laws.EncodingRow.ret
  | .jmp nnn => Laws.EncodingRow.jmp nnn
  | .call nnn => Laws.EncodingRow.call nnn
  | .seImm x kk => Laws.EncodingRow.seImm x kk
  | .sneImm x kk => Laws.EncodingRow.sneImm x kk
  | .seReg x y => Laws.EncodingRow.seReg x y
  | .ldImm x kk => Laws.EncodingRow.ldImm x kk
  | .addImm x kk => Laws.EncodingRow.addImm x kk
  | .ldReg x y => Laws.EncodingRow.ldReg x y
  | .orReg x y => Laws.EncodingRow.orReg x y
  | .andReg x y => Laws.EncodingRow.andReg x y
  | .xorReg x y => Laws.EncodingRow.xorReg x y
  | .addReg x y => Laws.EncodingRow.addReg x y
  | .subReg x y => Laws.EncodingRow.subReg x y
  | .shr x y => Laws.EncodingRow.shr x y
  | .subn x y => Laws.EncodingRow.subn x y
  | .shl x y => Laws.EncodingRow.shl x y
  | .sneReg x y => Laws.EncodingRow.sneReg x y
  | .ldI nnn => Laws.EncodingRow.ldI nnn
  | .jmpV0 nnn => Laws.EncodingRow.jmpV0 nnn
  | .rnd x kk => Laws.EncodingRow.rnd x kk
  | .drw x y n => Laws.EncodingRow.drw x y n
  | .skp x => Laws.EncodingRow.skp x
  | .sknp x => Laws.EncodingRow.sknp x
  | .ldVxDt x => Laws.EncodingRow.ldVxDt x
  | .ldVxK x => Laws.EncodingRow.ldVxK x
  | .ldDtVx x => Laws.EncodingRow.ldDtVx x
  | .ldStVx x => Laws.EncodingRow.ldStVx x
  | .addI x => Laws.EncodingRow.addI x
  | .ldF x => Laws.EncodingRow.ldF x
  | .ldB x => Laws.EncodingRow.ldB x
  | .storeRegs x => Laws.EncodingRow.storeRegs x
  | .loadRegs x => Laws.EncodingRow.loadRegs x

/-- A field that the mask of a row covers is, in every word of the row, the field of the row's value. -/
theorem extract_of_accepts {m v : Word} (h : OpcodeRow.accepts ⟨m, v⟩ op = true) (b w : Nat)
    (hm : m.extractLsb' b w = BitVec.allOnes w) : op.extractLsb' b w = v.extractLsb' b w := by
  have hv : op &&& m = v := eq_of_beq h
  rw [← hv, BitVec.extractLsb'_and, hm, BitVec.and_allOnes]

theorem eq_value_of_accepts {v : Word} (h : OpcodeRow.accepts ⟨0xFFFF#16, v⟩ op = true) : op = v := by
  have := extract_of_accepts h 0 16 (by decide)
  rwa [extract_all, extract_all] at this

theorem encodeNNN_of_accepts (f : BitVec 4) (h : OpcodeRow.accepts ⟨0xF000#16, encodeNNN f 0⟩ op = true) :
    encodeNNN f (fieldNNN op) = op :=
  encodeNNN_of_fields ((extract_of_accepts h 12 4 (by decide)).trans (fieldFam_encodeNNN f 0))

theorem encodeXKK_of_accepts (f : BitVec 4) (h : OpcodeRow.accepts ⟨0xF000#16, encodeNNN f 0⟩ op = true) :
    encodeXKK f (fieldX op) (fieldKK op) = op :=
  encodeXKK_of_fields ((extract_of_accepts h 12 4 (by decide)).trans (fieldFam_encodeNNN f 0)) rfl

theorem encodeXYN_of_accepts (f : BitVec 4) (h : OpcodeRow.accepts ⟨0xF000#16, encodeNNN f 0⟩ op = true) :
    encodeXYN f (fieldX op) (fieldY op) (BitVec.ofFin (fieldN op)) = op :=
  encodeXYN_of_fields ((extract_of_accepts h 12 4 (by decide)).trans (fieldFam_encodeNNN f 0)) rfl

theorem encodeXSS_of_accepts (f : BitVec 4) (kk : Byte)
    (h : OpcodeRow.accepts ⟨0xF0FF#16, encodeXKK f 0 kk⟩ op = true) : encodeXKK f (fieldX op) kk = op :=
  encodeXKK_of_fields ((extract_of_accepts h 12 4 (by decide)).trans (fieldFam_encodeXKK f 0 kk))
    ((extract_of_accepts h 0 8 (by decide)).trans (fieldKK_encodeXKK f 0 kk))

theorem encodeXYS_of_accepts (f n : BitVec 4)
    (h : OpcodeRow.accepts ⟨0xF00F#16, encodeXYN f 0 0 n⟩ op = true) : encodeXYN f (fieldX op) (fieldY op) n = op :=
  encodeXYN_of_fields ((extract_of_accepts h 12 4 (by decide)).trans (fieldFam_encodeXYN f 0 0 n))
    ((extract_of_accepts h 0 4 (by decide)).trans (fieldSub_encodeXYN f 0 0 n))

/-- A word that a row accepts is the word of an instruction of that row: the operands are read off its free bits. -/
theorem exists_encode_of_accepts : ∀ i : Instr, i.row.accepts op = true → ∃ j, encode j = op ∧ j.row = i.row
  | .cls, h => ⟨.cls, (eq_value_of_accepts h).symm, rfl⟩
  | .ret, h => ⟨.ret, (eq_value_of_accepts h).symm, rfl⟩
  | .jmp _, h => ⟨.jmp _, encodeNNN_of_accepts 0x1#4 h, rfl⟩
  | .call _, h => ⟨.call _, encodeNNN_of_accepts 0x2#4 h, rfl⟩
  | .seImm _ _, h => ⟨.seImm _ _, encodeXKK_of_accepts 0x3#4 h, rfl⟩
  | .sneImm _ _, h => ⟨.sneImm _ _, encodeXKK_of_accepts 0x4#4 h, rfl⟩
  | .seReg _ _, h => ⟨.seReg _ _, encodeXYS_of_accepts 0x5#4 0x0#4 h, rfl⟩
  | .ldImm _ _, h => ⟨.ldImm _ _, encodeXKK_of_accepts 0x6#4 h, rfl⟩
  | .addImm _ _, h => ⟨.addImm _ _, encodeXKK_of_accepts 0x7#4 h, rfl⟩
  | .ldReg _ _, h => ⟨.ldReg _ _, encodeXYS_of_accepts 0x8#4 0x0#4 h, rfl⟩
  | .orReg _ _, h => ⟨.orReg _ _, encodeXYS_of_accepts 0x8#4 0x1#4 h, rfl⟩
  | .andReg _ _, h => ⟨.andReg _ _, encodeXYS_of_accepts 0x8#4 0x2#4 h, rfl⟩
  | .xorReg _ _, h => ⟨.xorReg _ _, encodeXYS_of_accepts 0x8#4 0x3#4 h, rfl⟩
  | .addReg _ _, h => ⟨.addReg _ _, encodeXYS_of_accepts 0x8#4 0x4#4 h, rfl⟩
  | .subReg _ _, h => ⟨.subReg _ _, encodeXYS_of_accepts 0x8#4 0x5#4 h, rfl⟩
  | .shr _ _, h => ⟨.shr _ _, encodeXYS_of_accepts 0x8#4 0x6#4 h, rfl⟩
  | .subn _ _, h => ⟨.subn _ _, encodeXYS_of_accepts 0x8#4 0x7#4 h, rfl⟩
  | .shl _ _, h => ⟨.shl _ _, encodeXYS_of_accepts 0x8#4 0xE#4 h, rfl⟩
  | .sneReg _ _, h => ⟨.sneReg _ _, encodeXYS_of_accepts 0x9#4 0x0#4 h, rfl⟩
  | .ldI _, h => ⟨.ldI _, encodeNNN_of_accepts 0xA#4 h, rfl⟩
  | .jmpV0 _, h => ⟨.jmpV0 _, encodeNNN_of_accepts 0xB#4 h, rfl⟩
  | .rnd _ _, h => ⟨.rnd _ _, encodeXKK_of_accepts 0xC#4 h, rfl⟩
  | .drw _ _ _, h => ⟨.drw _ _ _, encodeXYN_of_accepts 0xD#4 h, rfl⟩
  | .skp _, h => ⟨.skp _, encodeXSS_of_accepts 0xE#4 0x9E#8 h, rfl⟩
  | .sknp _, h => ⟨.sknp _, encodeXSS_of_accepts 0xE#4 0xA1#8 h, rfl⟩
  | .ldVxDt _, h => ⟨.ldVxDt _, encodeXSS_of_accepts 0xF#4 0x07#8 h, rfl⟩
  | .ldVxK _, h => ⟨.ldVxK _, encodeXSS_of_accepts 0xF#4 0x0A#8 h, rfl⟩
  | .ldDtVx _, h => ⟨.ldDtVx _, encodeXSS_of_accepts 0xF#4 0x15#8 h, rfl⟩
  | .ldStVx _, h => ⟨.ldStVx _, encodeXSS_of_accepts 0xF#4 0x18#8 h, rfl⟩
  | .addI _, h => ⟨.addI _, encodeXSS_of_accepts 0xF#4 0x1E#8 h, rfl⟩
  | .ldF _, h => ⟨.ldF _, encodeXSS_of_accepts 0xF#4 0x29#8 h, rfl⟩
  | .ldB _, h => ⟨.ldB _, encodeXSS_of_accepts 0xF#4 0x33#8 h, rfl⟩
  | .storeRegs _, h => ⟨.storeRegs _, encodeXSS_of_accepts 0xF#4 0x55#8 h, rfl⟩
  | .loadRegs _, h => ⟨.loadRegs _, encodeXSS_of_accepts 0xF#4 0x65#8 h, rfl⟩

theorem exists_row_of_mem : ∀ r ∈ opcodeTable, ∃ i : Instr, i.row = r := by
  simp [opcodeTable]

/-- A word that a row of the table accepts decodes, to an instruction of that row. -/
theorem decode_of_accepts {r : OpcodeRow} (hr : r ∈ opcodeTable) (h : r.accepts op = true) :
    ∃ i, decode op = .ok i ∧ i.row = r := by
  obtain ⟨i, rfl⟩ := exists_row_of_mem r hr
  obtain ⟨j, rfl, hj⟩ := exists_encode_of_accepts i h
  exact ⟨j, decode_encode j, hj⟩

theorem row_accepts_of_decode (h : decode op = .ok i) : i.row.accepts op = true :=
  encode_of_decode h ▸ row_accepts_encode i

theorem wordWellFormed_iff : wordWellFormed op = true ↔ ∃ r ∈ opcodeTable, r.accepts op = true :=
  List.any_eq_true

theorem opcodeTable_nodup : opcodeTable.Nodup := by decide

/-! ### The statements -/

/-- Settles O1: each word by evaluation of the decoder. -/
theorem sampleWordsDecode : Obligations.SampleWordsDecode := by
  unfold Obligations.SampleWordsDecode
  decide

/-- Settles O2: each field of an encoded word reads back what the format put there. -/
theorem decodeOfEncodeIsTheInstruction : Obligations.DecodeOfEncodeIsTheInstruction :=
  fun i => ⟨List.contains_iff_mem.2 (row_mem_opcodeTable i), decode_encode i⟩

/-- Settles O3: in every branch of the decoder the family and the fixed bits that it tested, with the operands that it
read, make up the whole word. -/
theorem decodedWordIsTheEncoding : Obligations.DecodedWordIsTheEncoding :=
  fun _ _ => encode_of_decode

/-- Settles O4: a decoded word is an encoding, which its row accepts; a row accepts only encodings, which decode. -/
theorem decoderAcceptsExactlyTheTable : Obligations.DecoderAcceptsExactlyTheTable := by
  refine fun op => ⟨⟨fun ⟨i, h⟩ => ?_, fun h => ?_⟩, fun i => row_accepts_of_decode⟩
  · exact wordWellFormed_iff.2 ⟨i.row, row_mem_opcodeTable i, row_accepts_of_decode h⟩
  · obtain ⟨r, hr, hacc⟩ := wordWellFormed_iff.1 h
    obtain ⟨i, hi, -⟩ := decode_of_accepts hr hacc
    exact ⟨i, hi⟩

/-- Settles O5: a row that accepts a word is the row of the instruction that the word decodes to. -/
theorem tableRowsAreDisjoint : Obligations.TableRowsAreDisjoint := by
  refine ⟨rfl, fun op j k hj hk => ?_⟩
  have hlt (l : Fin 34) : l.val < opcodeTable.length := l.isLt
  rw [List.getD_eq_getElem _ _ (hlt _)] at hj hk
  obtain ⟨i, hi, hij⟩ := decode_of_accepts (List.getElem_mem (hlt j)) hj
  obtain ⟨i', hi', hik⟩ := decode_of_accepts (List.getElem_mem (hlt k)) hk
  obtain rfl : i = i' := Except.ok.inj (hi.symm.trans hi')
  exact Fin.ext ((opcodeTable_nodup.getElem_inj_iff).1 (hij.symm.trans hik))

end Sys2Proof
end

section
/-! The proofs of the statements on single instructions that cannot fail: jumps, skips, loads, arithmetic, the index
register, the keypad and the timers (40_control_flow, 41_load_and_alu, 42_index_and_memory section 2,
44_keypad_and_timers). -/

namespace Sys2Proof.Machine

variable {s t : State} {P : Part → Prop}

/-! ### Registers after an update of another part -/

@[simp] theorem State.reg_advance (s : State) (r : RegNum) : s.advance.reg r = s.reg r := rfl
@[simp] theorem State.reg_skipIf (s : State) (c : Bool) (r : RegNum) : (s.skipIf c).reg r = s.reg r := rfl
@[simp] theorem State.reg_setPc (s : State) (a : Word) (r : RegNum) : (s.setPc a).reg r = s.reg r := rfl
@[simp] theorem State.reg_setIndex (s : State) (a : Word) (r : RegNum) : (s.setIndex a).reg r = s.reg r := rfl
@[simp] theorem State.reg_setDelay (s : State) (b : Byte) (r : RegNum) : (s.setDelay b).reg r = s.reg r := rfl
@[simp] theorem State.reg_setSound (s : State) (b : Byte) (r : RegNum) : (s.setSound b).reg r = s.reg r := rfl
@[simp] theorem State.reg_setMem (s : State) (m : Memory) (r : RegNum) : (s.setMem m).reg r = s.reg r := rfl
@[simp] theorem State.reg_setDisplay (s : State) (d : Display) (r : RegNum) : (s.setDisplay d).reg r = s.reg r := rfl
@[simp] theorem State.reg_countDraw (s : State) (r : RegNum) : s.countDraw.reg r = s.reg r := rfl

theorem State.reg_setReg_self (s : State) (x : RegNum) (b : Byte) : (s.setReg x b).reg x = b := by simp

/-! ### Addresses, flags and operands as numbers -/

theorem zext8_toNat (b : Byte) : (zext8 b).toNat = b.toNat :=
  BitVec.toNat_setWidth_of_le (by decide)

theorem zext12_add_zext8_toNat (nnn : Addr12) (b : Byte) : (zext12 nnn + zext8 b).toNat = nnn.toNat + b.toNat := by
  rw [BitVec.toNat_add, zext12_toNat, zext8_toNat]
  omega

theorem index_add_zext8_toNat (i : Word) (b : Byte) : (i + zext8 b).toNat = (i.toNat + b.toNat) % 65536 := by
  rw [BitVec.toNat_add, zext8_toNat]

theorem flagOf_decide (p : Prop) [Decidable p] : flagOf (decide p) = if p then 1 else 0 := by
  simp [flagOf]

theorem flagOf_toNat (c : Bool) : (flagOf c).toNat = c.toNat := by
  cases c <;> rfl

theorem State.jumpRegister_val (s : State) (nnn : Addr12) :
    (s.jumpRegister nnn).val = if s.quirks.jumpUsesVx then nnn.toNat / 256 else 0 := by
  unfold State.jumpRegister
  split
  · show (nnn.extractLsb' 8 4).toNat = _
    rw [BitVec.extractLsb'_toNat, Nat.shiftRight_eq_div_pow]
    omega
  · rfl

theorem glyphAddress_toNat (b : Byte) : (glyphAddress b).toNat = 0x050 + 5 * (b.toNat % 16) := by
  rw [glyphAddress, BitVec.toNat_ofNat, Config.fontBase_eq]
  omega

theorem State.skipIf_pc_add (s : State) (c : Bool) : (s.skipIf c).pc = s.pc + if c then 4 else 2 := by
  cases c <;> rfl

theorem byte_toNat_sub (a b : Byte) : ((a - b).toNat : Int) = ((a.toNat : Int) - b.toNat) % 256 := by
  have hb := b.isLt
  rw [BitVec.toNat_sub]
  omega

theorem byte_ofNat_sum (a b : Byte) : BitVec.ofNat 8 ((a.toNat + b.toNat) % 256) = a + b :=
  BitVec.eq_of_toNat_eq (by simp)

theorem shiftedOutRight_toNat (b : Byte) : (shiftedOutRight b).toNat = b.toNat % 2 := by
  rw [shiftedOutRight, flagOf_toNat, BitVec.getLsbD, Nat.toNat_testBit]
  omega

theorem shiftedOutLeft_toNat (b : Byte) : (shiftedOutLeft b).toNat = b.toNat / 128 := by
  have hb := b.isLt
  rw [shiftedOutLeft, flagOf_toNat, BitVec.getLsbD, Nat.toNat_testBit]
  omega

/-! ### Frames -/

theorem OnlyTouches.advance (h : OnlyTouches P s t) : OnlyTouches P s t.advance := h

/-- SP put back to its old value is not touched. -/
theorem OnlyTouches.of_sp_eq (h : OnlyTouches (fun p => p = .sp ∨ P p) s t) (hsp : t.sp = s.sp) :
    OnlyTouches P s t := by
  simpa [OnlyTouches, hsp] using h

/-! ### A result and its flag -/

section
variable (s : State) (x : RegNum) (b f : Byte)

theorem State.reg_flag_writeRegFlag : (s.writeRegFlag x b f).reg 15 = f := by simp

theorem State.reg_writeRegFlag_of_ne (h : x ≠ 15) : (s.writeRegFlag x b f).reg x = b := by simp [h]

theorem touches_writeRegFlag_self : OnlyTouches (fun p => p = .reg x ∨ p = .reg 15) s (s.writeRegFlag x b f) :=
  touches_writeRegFlag s x b f (.inl rfl) (.inr rfl)

/-- A difference and its no-borrow flag, whichever operand is the minuend. -/
theorem writeRegFlag_difference (m n : Byte) :
    (x ≠ 15 → (((s.writeRegFlag x (m - n) (noBorrow m n)).reg x).toNat : Int) = ((m.toNat : Int) - n.toNat) % 256) ∧
    (s.writeRegFlag x (m - n) (noBorrow m n)).reg 15 = (if m.toNat ≥ n.toNat then 1 else 0) ∧
    (s.writeRegFlag x (m - n) (noBorrow m n)).pc = s.pc + 2 ∧
    OnlyTouches (fun p => p = .reg x ∨ p = .reg 15) s (s.writeRegFlag x (m - n) (noBorrow m n)) := by
  refine ⟨fun hx => ?_, ?_, rfl, touches_writeRegFlag_self s x _ _⟩
  · rw [State.reg_writeRegFlag_of_ne s x _ _ hx, byte_toNat_sub]
  · rw [State.reg_flag_writeRegFlag, noBorrow, flagOf_decide]

end

/-! ### The two endings of `ADD I` and of the key wait -/

/-- `ADD I`: I alone is written, or I and then VF. -/
theorem execAddI_cases (x : RegNum) (s : State) :
    (s.quirks.addiSetsVf = false ∧ exec (.addI x) s = .next (s.setIndex (s.i + zext8 (s.reg x))).advance) ∨
    (s.quirks.addiSetsVf = true ∧ exec (.addI x) s =
      .next ((s.setIndex (s.i + zext8 (s.reg x))).setReg 15 (indexOverflow s.i (s.reg x))).advance) := by
  cases h : s.quirks.addiSetsVf <;> simp [exec, execAddI, h]

theorem execLdVxK_of_none (x : RegNum) (h : ∀ k, s.key k = false) : exec (.ldVxK x) s = .next s := by
  rcases execLdVxK_cases x s with ⟨-, e⟩ | ⟨k, hk, -⟩
  · exact e
  · simp [h] at hk

/-- The least key that is down is the only one that is down with every key below it up. -/
theorem execLdVxK_of_least (x : RegNum) {k : Key} (hk : s.key k = true) (hlt : ∀ j, j < k → s.key j = false) :
    exec (.ldVxK x) s = .next (s.writeReg x (BitVec.ofNat 8 k.val)) := by
  rcases execLdVxK_cases x s with ⟨h, -⟩ | ⟨j, hj, hjlt, e⟩
  · simp [h] at hk
  · rcases lt_trichotomy j k with h | rfl | h
    · simp [hlt j h] at hj
    · exact e
    · simp [hjlt k h] at hk

/-! ### The statements -/

/-- Settles O23: the zero extension of nnn has its value. -/
theorem jumpSetsPc : Obligations.JumpSetsPc :=
  fun nnn s => ⟨_, rfl, zext12_toNat nnn, touches_setPc s _⟩

/-- Settles O24: a 12-bit address and a byte add up below 65536. -/
theorem jumpWithOffsetAddsTheSelectedRegister : Obligations.JumpWithOffsetAddsTheSelectedRegister := by
  intro nnn s r hr
  obtain rfl : s.jumpRegister nnn = r := Fin.ext ((s.jumpRegister_val nnn).trans hr.symm)
  exact ⟨_, rfl, zext12_add_zext8_toNat nnn _, touches_setPc s _⟩

/-- Settles O25: each of the four is one conditional skip. -/
theorem skipsAdvanceByFourOrTwo : Obligations.SkipsAdvanceByFourOrTwo := by
  refine fun x y kk s => ⟨⟨_, rfl, touches_skipIf s _, ?_⟩, ⟨_, rfl, touches_skipIf s _, ?_⟩,
    ⟨_, rfl, touches_skipIf s _, ?_⟩, ⟨_, rfl, touches_skipIf s _, ?_⟩⟩ <;> rw [State.skipIf_pc_add] <;> simp

/-- Settles O27: each of the six is one write of V[x]. -/
theorem plainRegisterWrites : Obligations.PlainRegisterWrites := by
  intro x y kk s i b h
  suffices e : exec i s = .next (s.writeReg x b) by
    exact ⟨_, e, by simp, rfl, touches_writeReg s x b rfl⟩
  simp only [List.mem_cons, Prod.mk.injEq, List.not_mem_nil, or_false] at h
  rcases h with ⟨rfl, rfl⟩ | ⟨rfl, rfl⟩ | ⟨rfl, rfl⟩ | ⟨rfl, rfl⟩ | ⟨rfl, rfl⟩ | ⟨rfl, rfl⟩
  case inr.inl =>
    rw [byte_ofNat_sum]
    rfl
  all_goals rfl

/-- Settles O28: the sum and its carry, the flag written last. -/
theorem addRegistersSetsSumAndCarry : Obligations.AddRegistersSetsSumAndCarry := by
  refine fun x y s => ⟨_, rfl, fun hx => ?_, ?_, rfl, touches_writeRegFlag_self s x _ _⟩
  · rw [State.reg_writeRegFlag_of_ne s x _ _ hx, BitVec.toNat_add]
  · rw [State.reg_flag_writeRegFlag, carryOut, flagOf_decide]

/-- Settles O29: V[x] is the minuend. -/
theorem subtractSetsDifferenceAndNoBorrow : Obligations.SubtractSetsDifferenceAndNoBorrow :=
  fun x y s => ⟨_, rfl, writeRegFlag_difference s x (s.reg x) (s.reg y)⟩

/-- Settles O30: V[y] is the minuend. -/
theorem reverseSubtractSetsDifferenceAndNoBorrow : Obligations.ReverseSubtractSetsDifferenceAndNoBorrow :=
  fun x y s => ⟨_, rfl, writeRegFlag_difference s x (s.reg y) (s.reg x)⟩

/-- Settles O31: a shift by one place halves or doubles, and the flag is the bit that falls out. -/
theorem shiftsMoveOneBitIntoVf : Obligations.ShiftsMoveOneBitIntoVf := by
  intro x y s b hb
  obtain rfl : s.shiftOperand x y = b := hb.symm
  refine ⟨⟨_, rfl, fun hx => ?_, ?_, rfl, touches_writeRegFlag_self s x _ _⟩,
    ⟨_, rfl, fun hx => ?_, ?_, rfl, touches_writeRegFlag_self s x _ _⟩⟩
  · rw [State.reg_writeRegFlag_of_ne s x _ _ hx, BitVec.toNat_ushiftRight, Nat.shiftRight_eq_div_pow]
  · rw [State.reg_flag_writeRegFlag, shiftedOutRight_toNat]
  · rw [State.reg_writeRegFlag_of_ne s x _ _ hx, BitVec.toNat_shiftLeft, Nat.shiftLeft_eq]
  · rw [State.reg_flag_writeRegFlag, shiftedOutLeft_toNat]

/-- Settles O32: a bit of a conjunction is off where it is off in kk. -/
theorem randomMasksAFreshFreeByte : Obligations.RandomMasksAFreshFreeByte := by
  intro x kk s
  have hreg : ((s.writeReg x (Config.freeByte s.draws &&& kk)).countDraw).reg x = Config.freeByte s.draws &&& kk :=
    State.reg_setReg_self s x _
  refine ⟨_, rfl, hreg, fun k hk => ?_, rfl, rfl,
    (touches_writeReg s x _ (.inl rfl)).trans (touches_countDraw _ (.inr rfl))⟩
  rw [hreg, BitVec.getLsbD_and, hk, Bool.and_false]

/-- Settles O33: both addresses fit in 16 bits. -/
theorem indexLoads : Obligations.IndexLoads :=
  fun nnn _ s => ⟨⟨_, rfl, zext12_toNat nnn, rfl, OnlyTouches.advance (touches_setIndex s _ rfl)⟩,
    ⟨_, rfl, glyphAddress_toNat _, rfl, OnlyTouches.advance (touches_setIndex s _ rfl)⟩⟩

/-- Settles O34: the two ends of `ADD I`. -/
theorem addToIndexWrapsAtSixteenBits : Obligations.AddToIndexWrapsAtSixteenBits := by
  intro x s
  rcases execAddI_cases x s with ⟨hq, e⟩ | ⟨hq, e⟩
  · exact ⟨_, e, index_add_zext8_toNat _ _, by simp [hq], rfl, (touches_setIndex s _ (.inl rfl)).advance⟩
  · refine ⟨_, e, index_add_zext8_toNat _ _, fun _ => ?_, rfl,
      ((touches_setIndex s _ (.inl rfl)).trans (touches_setReg _ 15 _ (.inr ⟨rfl, hq⟩))).advance⟩
    exact (State.reg_setReg_self _ 15 _).trans (flagOf_decide _)

/-- Settles O40: the cleared display has every pixel off. -/
theorem clearTurnsEveryPixelOff : Obligations.ClearTurnsEveryPixelOff :=
  fun s => ⟨_, rfl, Display.pixel_clear, rfl, (touches_setDisplay s _ fun r c h => absurd ⟨r, c, rfl⟩ h).advance⟩

/-- Settles O44: the key tested is the one that the statement names. -/
theorem keySkipsTestTheLatch : Obligations.KeySkipsTestTheLatch := by
  intro x s k hk
  obtain rfl : keyNumber (s.reg x) = k := Fin.ext hk.symm
  refine ⟨⟨_, rfl, State.skipIf_pc_add s _, touches_skipIf s _⟩, ⟨_, rfl, ?_, touches_skipIf s _⟩⟩
  rw [State.skipIf_pc_add]
  cases s.key (keyNumber (s.reg x)) <;> rfl

/-- Settles O45: the two ends of the key wait. -/
theorem keyWaitHoldsUntilAKeyIsDown : Obligations.KeyWaitHoldsUntilAKeyIsDown := by
  refine fun x s => ⟨execLdVxK_of_none x, fun k hk hlt => ?_⟩
  refine ⟨_, execLdVxK_of_least x hk hlt, ?_, rfl, touches_writeReg s x _ rfl⟩
  rw [State.reg_writeReg, if_pos rfl, BitVec.toNat_ofNat]
  omega

/-- Settles O46: each of the three is one write of its destination. -/
theorem timerTransfers : Obligations.TimerTransfers :=
  fun x s => ⟨⟨_, rfl, by simp, rfl, touches_writeReg s x _ rfl⟩,
    ⟨_, rfl, rfl, rfl, OnlyTouches.advance (touches_setDelay s _ rfl)⟩,
    ⟨_, rfl, rfl, decide_eq_true_iff, rfl, OnlyTouches.advance (touches_setSound s _ rfl)⟩⟩

/-- Settles O21: the entry that the call wrote is the one that the return reads. -/
theorem callThenReturnRestoresPc : Obligations.CallThenReturnRestoresPc := by
  intro nnn s hsp
  let j : Fin 16 := ⟨s.sp.val, hsp⟩
  refine ⟨_, _, execCall_of_room nnn s j rfl, execRet_of_sp_succ _ j rfl, ?_, rfl, ?_⟩
  · exact (s.entry_setStackSpPc j j _ _ _).trans (if_pos rfl)
  · have hcall := touches_setStackSpPc (P := fun p => p = .sp ∨ ∃ k : Fin 16, p = .entry k ∧ k.val = s.sp.val)
      s j (s.pc + 2) (zext12 nnn) ⟨j.val + 1, by omega⟩ (.inl rfl) (.inr ⟨j, rfl, rfl⟩)
    exact (hcall.trans (touches_setSpPc _ _ _ (.inl rfl))).of_sp_eq rfl

end Sys2Proof.Machine
end

section
/-! The proofs of the statements on blocks of memory and on the display: the block instructions answer as stated when
their range lies in memory, and the draw flips what the sprite covers (42_index_and_memory sections 3 and 4, 43_display,
20_memory sections 1 and 8). -/

namespace Sys2Proof.Machine

variable {s t u : State} {P : Part → Prop} {m m' : Memory}

/-! ### A stored block -/

theorem Memory.byteAt_storeFrom_add (m : Memory) (a : Nat) (bs : List Byte) {j : Nat} (hj : j < bs.length) :
    (m.storeFrom a bs).byteAt (a + j) = bs.getD j 0 := by
  rw [Memory.byteAt_storeFrom, if_pos (by omega), Nat.add_sub_cancel_left]

theorem touches_storeFrom (s : State) (a : Nat) (bs : List Byte) (h : ∀ j < bs.length, P (.byte (a + j))) :
    OnlyTouches P s (s.setMem (s.mem.storeFrom a bs)) := by
  refine touches_setMem s _ fun c hc => ?_
  rw [Memory.byteAt_storeFrom, if_neg, State.byteAt]
  rintro ⟨hac, hlt⟩
  have hP := h (c - a) (by omega)
  rw [Nat.add_sub_cancel' hac] at hP
  exact hc hP

theorem execLdB_of_raises_none {x : RegNum} (h : raises (.ldB x) s = none) :
    exec (.ldB x) s = .next (s.setMem (s.mem.storeFrom s.i.toNat (decimalDigits (s.reg x)))).advance := by
  rcases execLdB_cases x s with ⟨-, e⟩ | ⟨hout, -⟩
  · exact e
  · rw [raises, if_pos (by omega)] at h
    cases h

theorem execStoreRegs_of_raises_none {x : RegNum} (h : raises (.storeRegs x) s = none) :
    exec (.storeRegs x) s = .next (s.setMem (s.mem.storeFrom s.i.toNat (s.regBlock x))).advance := by
  rcases execStoreRegs_cases x s with ⟨-, e⟩ | ⟨hout, -⟩
  · exact e
  · rw [raises, if_pos (by omega)] at h
    cases h

theorem execLoadRegs_of_raises_none {x : RegNum} (h : raises (.loadRegs x) s = none) : exec (.loadRegs x) s =
    .next (s.setRegs (fillRegs s.v 0 (s.mem.bytesFrom s.i.toNat (x.val + 1)))).advance := by
  rcases execLoadRegs_cases x s with ⟨-, e⟩ | ⟨hout, -⟩
  · exact e
  · rw [raises, if_pos (by omega)] at h
    cases h

/-- The registers after a block load: the first x + 1 hold the bytes, the others are as before. -/
theorem getElem_fillRegs_bytesFrom (s : State) (a : Nat) (x r : RegNum) :
    (fillRegs s.v 0 (s.mem.bytesFrom a (x.val + 1)))[r.val] = if r ≤ x then s.byteAt (a + r.val) else s.reg r := by
  rw [getElem_fillRegs, Memory.length_bytesFrom]
  by_cases hr : r ≤ x
  · have hlt : r.val < x.val + 1 := Nat.lt_succ_of_le hr
    rw [if_pos ⟨Nat.zero_le _, by omega⟩, if_pos hr, Nat.sub_zero, Memory.getD_bytesFrom _ _ _ _ hlt]
    rfl
  · have hlt : x.val < r.val := Nat.lt_of_not_le hr
    rw [if_neg (by omega), if_neg hr]
    rfl

/-! ### The sprite of a draw -/

theorem execDrw_of_raises_none {x y : RegNum} {n : Fin 16} (h : raises (.drw x y n) s = none) :
    exec (.drw x y n) s = .next (((s.setDisplay
      (drawSprite s.display (s.reg x).toNat (s.reg y).toNat (s.mem.bytesFrom s.i.toNat n.val)).1).setReg 15
      (flagOf (drawSprite s.display (s.reg x).toNat (s.reg y).toNat (s.mem.bytesFrom s.i.toNat n.val)).2)).advance) := by
  rcases execDrw_cases x y n s with ⟨-, e⟩ | ⟨hout, -⟩
  · exact e
  · rw [raises, if_pos (by omega)] at h
    cases h

/-- The sprite that the rasteriser is given covers the pixels that the statements speak of. -/
theorem rasterBit_iff_spriteBit (s : State) (x y : RegNum) (n : Fin 16) (r : Fin 32) (c : Fin 64) :
    RasterBit (s.reg x).toNat (s.reg y).toNat (s.mem.bytesFrom s.i.toNat n.val) r c ↔ SpriteBit s x y n r c := by
  rw [RasterBit, Memory.length_bytesFrom]
  refine exists_congr fun j => and_congr_right fun hj => ?_
  rw [Memory.getD_bytesFrom _ _ _ _ hj]
  constructor
  · rintro ⟨hr, k, hk, hc, hb⟩
    exact ⟨k, hk, hr, hc, hb⟩
  · rintro ⟨k, hk, hr, hc, hb⟩
    exact ⟨hr, k, hk, hc, hb⟩

/-- The sprite depends on the coordinates, on I and on memory only. -/
theorem spriteBit_congr {x y : RegNum} (hx : t.reg x = s.reg x) (hy : t.reg y = s.reg y) (hi : t.i = s.i)
    (hm : ∀ a, t.byteAt a = s.byteAt a) (n : Fin 16) (r : Fin 32) (c : Fin 64) :
    SpriteBit t x y n r c ↔ SpriteBit s x y n r c := by
  simp only [SpriteBit, hx, hy, hi, hm]

theorem not_spriteBit_zero (s : State) (x y : RegNum) (r : Fin 32) (c : Fin 64) : ¬ SpriteBit s x y 0 r c := by
  rintro ⟨j, hj, -⟩
  exact Nat.not_lt_zero j hj

/-! ### Canonical memories -/

/-- The least address that a canonical memory lists reads otherwise than if it were not listed. -/
theorem Memory.byteAt_head_ne {k : Nat} {b : Byte} (h : Memory.wf ((k, b) :: m) = true) :
    Memory.byteAt ((k, b) :: m) k ≠ background k := by
  obtain ⟨-, hb, -⟩ := (Memory.wf_cons _ _ _).1 h
  rwa [Memory.byteAt, if_pos rfl]

theorem Memory.byteAt_of_lt_head {k a : Nat} {b : Byte} (h : Memory.wf ((k, b) :: m) = true) (ha : a < k) :
    Memory.byteAt ((k, b) :: m) a = background a := by
  obtain ⟨-, -, hall, -⟩ := (Memory.wf_cons _ _ _).1 h
  refine Memory.byteAt_of_forall_lt fun c hc => ?_
  rcases List.mem_cons.1 hc with rfl | hc
  · exact ha
  · exact Nat.lt_trans ha (hall c hc)

/-- Two canonical memories that read the same begin at the same address. -/
theorem Memory.head_le {k k' : Nat} {b b' : Byte} (h : Memory.wf ((k, b) :: m) = true)
    (h' : Memory.wf ((k', b') :: m') = true)
    (heq : ∀ a, Memory.byteAt ((k, b) :: m) a = Memory.byteAt ((k', b') :: m') a) : k' ≤ k := by
  by_contra hlt
  exact Memory.byteAt_head_ne h ((heq k).trans (Memory.byteAt_of_lt_head h' (Nat.lt_of_not_le hlt)))

theorem Memory.byteAt_tail {k : Nat} {b : Byte} (h : Memory.wf ((k, b) :: m) = true) (a : Nat) :
    m.byteAt a = if a = k then background k else Memory.byteAt ((k, b) :: m) a := by
  obtain ⟨-, -, hall, -⟩ := (Memory.wf_cons _ _ _).1 h
  split
  · next e => subst e; exact Memory.byteAt_of_forall_lt hall
  · next e => rw [Memory.byteAt, if_neg e]

theorem Memory.eq_of_byteAt_eq (m m' : Memory) (h : m.wf = true) (h' : m'.wf = true)
    (heq : ∀ a, m.byteAt a = m'.byteAt a) : m = m' := by
  induction m generalizing m' with
  | nil =>
    cases m' with
    | nil => rfl
    | cons c m' => exact absurd (heq c.1).symm (Memory.byteAt_head_ne h')
  | cons c m ih =>
    obtain ⟨k, b⟩ := c
    cases m' with
    | nil => exact absurd (heq k) (Memory.byteAt_head_ne h)
    | cons c' m' =>
      obtain ⟨k', b'⟩ := c'
      obtain rfl : k = k' := Nat.le_antisymm (Memory.head_le h' h fun a => (heq a).symm) (Memory.head_le h h' heq)
      obtain rfl : b = b' := by simpa [Memory.byteAt] using heq k
      obtain ⟨-, -, -, hm⟩ := (Memory.wf_cons _ _ _).1 h
      obtain ⟨-, -, -, hm'⟩ := (Memory.wf_cons _ _ _).1 h'
      rw [ih m' hm hm' fun a => by rw [Memory.byteAt_tail h, Memory.byteAt_tail h', heq]]

/-! ### The statements -/

/-- Settles O35: the digits of a byte, at three ascending addresses. -/
theorem decimalStoreWritesThreeDigits : Obligations.DecimalStoreWritesThreeDigits := by
  intro x s h
  have hbyte (j : Nat) (hj : j < 3) := Memory.byteAt_storeFrom_add s.mem s.i.toNat (decimalDigits (s.reg x)) hj
  have hx := (s.reg x).isLt
  refine ⟨_, execLdB_of_raises_none (if_neg (by omega)), ?_, ?_, ?_, rfl,
    OnlyTouches.advance (touches_storeFrom s _ _ fun j hj => ⟨j, hj, rfl⟩)⟩
  · exact (congrArg BitVec.toNat (hbyte 0 (by decide))).trans (Nat.mod_eq_of_lt (by omega))
  · exact (congrArg BitVec.toNat (hbyte 1 (by decide))).trans (Nat.mod_eq_of_lt (by omega))
  · exact (congrArg BitVec.toNat (hbyte 2 (by decide))).trans (Nat.mod_eq_of_lt (by omega))

/-- Settles O36: byte j of the block is V[j]. -/
theorem storeRegistersWritesTheBlock : Obligations.StoreRegistersWritesTheBlock := by
  intro x s h
  refine ⟨_, execStoreRegs_of_raises_none (if_neg (by omega)), fun j hj => ?_, rfl,
    OnlyTouches.advance (touches_storeFrom s _ _ fun j hj => ?_)⟩
  · have hlt : j.val < (s.regBlock x).length := by
      rw [State.length_regBlock]
      exact Nat.lt_succ_of_le hj
    exact (Memory.byteAt_storeFrom_add s.mem _ _ hlt).trans (s.getD_regBlock x j hj)
  · rw [State.length_regBlock] at hj
    exact ⟨⟨j, by omega⟩, Nat.le_of_lt_succ hj, rfl⟩

/-- Settles O37: register j of the block gets byte j. -/
theorem loadRegistersReadsTheBlock : Obligations.LoadRegistersReadsTheBlock := by
  intro x s h
  refine ⟨_, execLoadRegs_of_raises_none (if_neg (by omega)), fun j hj => ?_, rfl,
    OnlyTouches.advance (touches_setRegs s _ fun r hr => ?_)⟩
  · exact (getElem_fillRegs_bytesFrom s _ x j).trans (if_pos hj)
  · exact (getElem_fillRegs_bytesFrom s _ x r).trans (if_neg fun hle => hr ⟨r, hle, rfl⟩)

/-- Settles O38: the load reads the addresses that the store wrote, since the store leaves I. -/
theorem storedBlockLoadsBack : Obligations.StoredBlockLoadsBack := by
  intro x s t u h ht hbytes hi
  obtain ⟨t', ht', hstored, -, -, hindex, -⟩ := storeRegistersWritesTheBlock x s h
  obtain rfl : t = t' := by simpa [ht] using ht'
  have hui : u.i = s.i := hi.trans (hindex (by simp))
  obtain ⟨w, hw, hloaded, -⟩ := loadRegistersReadsTheBlock x u (by rw [hui]; exact h)
  refine ⟨w, hw, fun j hj => ?_⟩
  rw [hloaded j hj, hbytes, hui, hstored j hj]

/-- Settles O39: the next PC is I, where the first two bytes of the block stand. -/
theorem storeIsSeenByTheNextFetch : Obligations.StoreIsSeenByTheNextFetch := by
  intro x s hx hi h
  obtain ⟨t, ht, hstored, hpc, -⟩ := storeRegistersWritesTheBlock x s h
  have hti : t.pc = s.i := hpc.trans hi.symm
  refine ⟨t, ht, ?_⟩
  rw [State.fetch_of_pc_le (by rw [hti]; omega), hti, ← hstored 0 (Nat.zero_le _), ← hstored 1 hx]
  rfl

/-- Settles O41: the rasteriser on the bytes at I. -/
theorem drawXorsTheSpriteWithWrap : Obligations.DrawXorsTheSpriteWithWrap := by
  intro x y n s h
  have hlen : (s.mem.bytesFrom s.i.toNat n.val).length < 32 := by
    rw [Memory.length_bytesFrom]
    omega
  obtain ⟨hpix, hhit⟩ := drawSprite_spec s.display (s.reg x).toNat (s.reg y).toNat _ hlen
  simp only [rasterBit_iff_spriteBit] at hpix hhit
  refine ⟨_, execDrw_of_raises_none (if_neg (by omega)), fun r c => (hpix r c).1, fun hon => ?_, fun hoff => ?_, rfl,
    OnlyTouches.advance ((touches_setDisplay s _ fun r c hrc => ?_).trans (touches_setReg _ 15 _ (.inl rfl)))⟩
  · exact (State.reg_setReg_self _ 15 _).trans (congrArg flagOf (hhit.2 hon))
  · refine (State.reg_setReg_self _ 15 _).trans (congrArg flagOf (Bool.eq_false_iff.2 fun hd => ?_))
    obtain ⟨r, c, hs, hon⟩ := hhit.1 hd
    exact Bool.false_ne_true ((hoff r c hs).symm.trans hon)
  · exact (hpix r c).2 fun hs => hrc (.inr ⟨r, c, rfl, hs⟩)

/-- Settles O42: a sprite of no rows covers no pixel. -/
theorem drawOfZeroRowsOnlyClearsVf : Obligations.DrawOfZeroRowsOnlyClearsVf := by
  intro x y s
  obtain ⟨t, ht, -, -, hflag, hpc, hframe⟩ := drawXorsTheSpriteWithWrap x y 0 s (.inl rfl)
  refine ⟨t, ht, hflag fun r c hs => absurd hs (not_spriteBit_zero s x y r c), hpc, hframe.mono ?_⟩
  rintro p (rfl | ⟨r, c, -, hs⟩)
  · rfl
  · exact absurd hs (not_spriteBit_zero s x y r c)

/-- Settles O43: the second draw flips the same pixels, each of which is then on iff it was off at first. -/
theorem drawingTwiceRestoresTheDisplay : Obligations.DrawingTwiceRestoresTheDisplay := by
  intro x y n s h
  obtain ⟨t, ht, hflip, -, -, -, hreg, hi, -, -, -, -, hbyte, hpix, -⟩ := drawXorsTheSpriteWithWrap x y n s h
  have hti : t.i = s.i := hi (by simp)
  have htb (a : Nat) : t.byteAt a = s.byteAt a := hbyte a (by simp)
  have hkept (z : RegNum) (hz : z ≠ 15) : t.reg z = s.reg z := hreg z (by simp [hz])
  obtain ⟨u, hu, hflip', hon, hoff, -, -, -, -, -, -, -, -, hpix', -⟩ :=
    drawXorsTheSpriteWithWrap x y n t (by rw [hti]; exact h)
  refine ⟨t, u, ht, hu, hkept x, hkept y, fun hx hy => ?_⟩
  simp only [spriteBit_congr hx hy hti htb] at hflip' hon hoff hpix'
  refine ⟨fun r c => ?_, fun hone => ?_, fun ⟨r, c, hs, hwas⟩ => ?_⟩
  · by_cases hs : SpriteBit s x y n r c
    · rw [hflip' r c hs, hflip r c hs, Bool.not_not]
    · exact (hpix' r c (by simpa using hs)).trans (hpix r c (by simpa using hs))
  · by_contra hno
    have hzero : u.reg 15 = 0 := hoff fun r c hs => by
      cases hwas : s.displayOut r c
      · exact absurd ⟨r, c, hs, hwas⟩ hno
      · rw [hflip r c hs, hwas]; rfl
    rw [hzero] at hone
    exact absurd hone (by decide)
  · exact hon ⟨r, c, hs, by rw [hflip r c hs, hwas]; rfl⟩

/-- Settles O56: by induction on one list; equal bytes force the first entries of the two to be the same. -/
theorem canonicalMemoriesAreDeterminedByTheirBytes : Obligations.CanonicalMemoriesAreDeterminedByTheirBytes :=
  Memory.eq_of_byteAt_eq

end Sys2Proof.Machine
end

section
/-! The proofs of the statements on the events of the machine: the fetch, the fatal errors of a step, `tick`,
`set_pressed`, `reset`, and the stable conditions (60_exceptions, 70_reset_and_hazards). -/

namespace Sys2Proof.Machine

variable {s t u : State} {rest : List Event}

/-! ### The cycle and the scheduled events -/

theorem step_of_schedule_nil (h : s.schedule = []) : step s = stepCycle s := by
  simp only [step, nextEvent, h]

theorem wordOfBytes_toNat (hi lo : Byte) : (wordOfBytes hi lo).toNat = hi.toNat * 256 + lo.toNat := by
  have hlo := lo.isLt
  rw [wordOfBytes, BitVec.toNat_append, ← Nat.shiftLeft_add_eq_or_of_lt hlo, Nat.shiftLeft_eq]

theorem countDown_eq_zero {b : Byte} (h : b = 0) : countDown b = 0 := by
  subst h; rfl

theorem countDown_add_one {b : Byte} (h : b ≠ 0) : (countDown b).toNat + 1 = b.toNat := by
  have : b.toNat ≠ 0 := fun e => h (BitVec.eq_of_toNat_eq e)
  rw [countDown_toNat]
  omega

theorem key_setPressed (s : State) (keys : List Key) (k : Key) : (setPressed keys s).key k = decide (k ∈ keys) :=
  (latchOf_getElem keys k).trans (List.contains_eq_mem k keys)

/-! ### A word stored where the fetch reads it -/

theorem fetch_of_stored {hi lo : Byte} {m : Memory} (hpc : s.pc.toNat + 1 ≤ 0xFFF)
    (hmem : s.mem = m.storeFrom s.pc.toNat [hi, lo]) : s.fetch = some (wordOfBytes hi lo) := by
  have hbyte (j : Nat) (hj : j < 2) : s.byteAt (s.pc.toNat + j) = [hi, lo].getD j 0 := by
    rw [State.byteAt, hmem, Memory.byteAt_storeFrom_add _ _ _ hj]
  rw [State.fetch_of_pc_le hpc]
  exact congrArg some (congrArg₂ wordOfBytes (hbyte 0 (by decide)) (hbyte 1 (by decide)))

theorem fetch_withFetchWord (s : State) (nbits w : Nat) : (s.withFetchWord nbits w).fetch =
    some (wordOfBytes ((BitVec.ofNat 16 (w % 2 ^ nbits)).extractLsb' 8 8)
      ((BitVec.ofNat 16 (w % 2 ^ nbits)).extractLsb' 0 8)) := by
  refine fetch_of_stored ?_ rfl
  show (if s.pc.toNat + 1 > 0xFFF then BitVec.ofNat 16 Config.progBase else s.pc).toNat + 1 ≤ 0xFFF
  split
  · decide
  · omega

theorem decode_of_decodeTableWord {nbits w : Nat} {i : Instr} (h : decodeTableWord nbits w = some i) :
    decode (wordOfBytes ((BitVec.ofNat 16 (w % 2 ^ nbits)).extractLsb' 8 8)
      ((BitVec.ofNat 16 (w % 2 ^ nbits)).extractLsb' 0 8)) = .ok i := by
  simp only [decodeTableWord, bytesOfWord, decodeBytes] at h
  cases hd : decode (wordOfBytes ((BitVec.ofNat 16 (w % 2 ^ nbits)).extractLsb' 8 8)
      ((BitVec.ofNat 16 (w % 2 ^ nbits)).extractLsb' 0 8)) with
  | error r => simp [hd] at h
  | ok j => simpa [hd] using h

/-! ### The state after reset -/

theorem background_font (j : Nat) : background (0x050 + j) = fontTable.getD j 0 := by
  rw [background, Config.fontBase_eq, if_pos (Nat.le_add_right _ _), Nat.add_sub_cancel_left]
  rfl

theorem background_eq_zero {a : Nat} (h : a < 0x050 ∨ 0x0A0 ≤ a) : background a = 0 := by
  rw [background, Config.fontBase_eq]
  split
  · have hlen : fontTable.length = 80 := rfl
    exact List.getD_eq_default _ _ (by omega)
  · rfl

theorem reset_reg (r : RegNum) : State.reset.reg r = 0 := Vector.getElem_replicate _
theorem reset_entry (j : Fin 16) : State.reset.entry j = 0 := Vector.getElem_replicate _
theorem reset_key (k : Key) : State.reset.key k = false := Vector.getElem_replicate _

/-! ### Fixed points -/

/-- An instruction at PC that changes nothing makes the cycle change nothing, on a halted core too. -/
theorem stepCycle_of_at {i : Instr} (h : s.At i) (he : exec i s = .next s) : stepCycle s = .next s := by
  obtain ⟨op, hf, hd⟩ := h
  cases hs : s.status with
  | halted k => exact stepCycle_of_halted hs
  | running => exact (stepCycle_of_decode_ok hs hf hd).trans he

theorem run_of_fixed_point (h : step s = .next s) (k : Nat) : Host.Core.run Sys2Proof.core k s = .next s := by
  induction k with
  | zero => rfl
  | succ k ih => simp only [Host.Core.run, Sys2Proof.core, h]; exact ih

/-! ### The statements -/

/-- Settles O7: the fetch on either side of its bound. -/
theorem fetchIsBigEndianAndBounded : Obligations.FetchIsBigEndianAndBounded :=
  fun _ => ⟨fun h => ⟨_, State.fetch_of_pc_le h, wordOfBytes_toNat _ _⟩, State.fetch_of_lt_pc⟩

/-- Settles O8: the cycle on a running core that has nothing to fetch. -/
theorem fetchOutsideMemoryHalts : Obligations.FetchOutsideMemoryHalts := by
  refine fun s u hact => ⟨fun hs hpc => ?_, fun hpc => ⟨_, State.fetch_of_pc_le (by omega)⟩⟩
  rw [step_of_actsOn hact, stepCycle_of_fetch_none hs (State.fetch_of_lt_pc (by omega))]
  exact raise_halts .outOfBounds u

/-- Settles O9: a word that decodes is accepted by a row. -/
theorem unlistedWordHalts : Obligations.UnlistedWordHalts := by
  intro s u op hact hs hf hno
  rw [step_of_actsOn hact]
  cases hd : decode op with
  | error r =>
    rw [stepCycle_of_decode_error hs hf hd]
    exact raise_halts .invalidOpcode u
  | ok i => exact absurd (row_accepts_of_decode hd) (by rw [hno i.row (row_mem_opcodeTable i)]; decide)

/-- Settles O13: one count down of each timer, floored at 0. -/
theorem tickDecrementsEachTimer : Obligations.TickDecrementsEachTimer := by
  intro s rest h
  exact ⟨_, step_of_schedule_cons h, countDown_eq_zero, countDown_add_one, countDown_eq_zero, countDown_add_one, rfl,
    (touches_setDelay _ _ (.inl rfl)).trans (touches_setSound _ _ (.inr rfl))⟩

/-- Settles O15: the new latch holds exactly the given keys. -/
theorem setPressedReplacesTheLatch : Obligations.SetPressedReplacesTheLatch := by
  intro s keys rest h
  exact ⟨_, step_of_schedule_cons h, key_setPressed _ keys, rfl, touches_setKeys _ _ fun j hj => absurd ⟨j, rfl⟩ hj⟩

/-- Settles O12: the cycle on a halted core, and the two events that do not look at the status. -/
theorem haltedCoreIgnoresSteps : Obligations.HaltedCoreIgnoresSteps := by
  intro s k hs
  refine ⟨fun h => ?_, fun rest h => ?_, fun rest h => ?_, fun keys rest h => ?_⟩
  · rw [step_of_schedule_nil h, stepCycle_of_halted hs]
  · exact (step_of_schedule_cons h).trans (stepCycle_of_halted (k := k) hs)
  · exact ⟨_, step_of_schedule_cons h, hs, countDown_toNat s.dt, countDown_toNat s.st⟩
  · refine ⟨_, step_of_schedule_cons h, hs, fun j => ?_⟩
    rw [key_setPressed, decide_eq_true_iff]

/-- Settles O14: by induction on the number of ticks. -/
theorem ticksCountDownToZero : Obligations.TicksCountDownToZero := by
  intro k
  induction k with
  | zero => exact fun s h => ⟨s, rfl, by simp, by simp, h, rfl⟩
  | succ k ih =>
    intro s h
    have hstep := step_of_schedule_cons h
    obtain ⟨t, ht, hdt, hst, hsch, heq⟩ := ih (tick { s with schedule := List.replicate k .tick }) rfl
    refine ⟨t, ?_, ?_, ?_, hsch, ?_⟩
    · simp only [Host.Core.run, Sys2Proof.core, hstep, applyEvent]
      exact ht
    · rw [hdt]
      show max ((countDown s.dt).toNat - k) 0 = _
      rw [countDown_toNat]
      omega
    · rw [hst]
      show max ((countDown s.st).toNat - k) 0 = _
      rw [countDown_toNat]
      omega
    · rw [heq]; rfl

/-- Settles O18: the placed word is fetched from PC, or from 0x200 where PC is outside memory. -/
theorem placedWordRunsNext : Obligations.PlacedWordRunsNext := by
  intro s w i h
  rw [step_of_schedule_nil rfl]
  exact stepCycle_of_decode_ok rfl (fetch_withFetchWord s 16 w) (decode_of_decodeTableWord h)

/-- Settles O16: the state after `reset`, with the image stored over what memory reads as with the empty one. -/
theorem resetReinitialisesEverything : Obligations.ResetReinitialisesEverything := by
  intro s image rest h hlen
  rcases resetWith_cases image { s with schedule := rest } with ⟨-, e⟩ | ⟨hlt, -⟩
  · refine ⟨_, (step_of_schedule_cons h).trans e, reset_reg, rfl, rfl, rfl, reset_entry, rfl, rfl, fun j hj => ?_,
      fun j hj => Memory.byteAt_storeFrom_add _ _ _ hj, fun a ha => ?_, Display.pixel_clear, reset_key, rfl, rfl, rfl,
      rfl, rfl⟩
    · refine (Memory.byteAt_storeFrom _ _ _ _).trans ((if_neg (by omega)).trans (background_font j))
    · refine (Memory.byteAt_storeFrom _ _ _ _).trans ((if_neg (by omega)).trans (background_eq_zero (by omega)))
  · omega

/-- Settles O17: memory lists nothing, so every address reads as its reset contents. -/
theorem resetStateHasTheTabledValues : Obligations.ResetStateHasTheTabledValues :=
  ⟨reset_reg, rfl, rfl, rfl, reset_entry, rfl, rfl, fun j _ => background_font j, fun _ => background_eq_zero,
    Display.pixel_clear, reset_key, rfl, rfl, rfl, rfl, rfl⟩

/-- Settles O54: the jump sets PC to what it is, the key wait changes nothing, and a halted core ignores the step. -/
theorem stableConditionsAreFixedPoints : Obligations.StableConditionsAreFixedPoints := by
  intro s hsch h
  rw [step_of_schedule_nil hsch]
  rcases h with ⟨nnn, hat, hpc⟩ | ⟨⟨x, hat⟩, hkeys⟩ | ⟨k, hs⟩
  · exact stepCycle_of_at hat (by simp only [exec, execJmp, State.setPc, hpc])
  · exact stepCycle_of_at hat (execLdVxK_of_none x hkeys)
  · exact stepCycle_of_halted hs

/-- Settles O55: an idle state is a fixed point, so every run stays in it. -/
theorem idleLoopIsSafeForEver : Obligations.IdleLoopIsSafeForEver :=
  fun s _ hsch hrun hidle k _ =>
    ⟨s, run_of_fixed_point (stableConditionsAreFixedPoints s hsch (.inl hidle)) k, hrun⟩

end Sys2Proof.Machine
end

section
/-! The proofs of the statements over all instructions: what an instruction may raise, what it may change, and that it
always answers (60_exceptions section 2, 10_state sections 1, 3, 5 and 13). -/

namespace Sys2Proof.Machine

variable {s t u : State} {i : Instr}

theorem State.key_congr (h : t.keys = s.keys) (k : Key) : t.key k = s.key k := by
  simp only [State.key, h]

/-! ### What an instruction can do -/

/-- What is so of the state after an instruction that raises no error: each part has changed only if the instruction is
one of its writers, and PC has moved by 2 unless the instruction sets it (10_state section 1 and R18). -/
structure Effect (i : Instr) (s t : State) : Prop where
  reg (r : RegNum) : ¬ mayWriteReg i s r → t.reg r = s.reg r
  pc : setsPc i = false → t.pc = s.pc + 2
  wait : (∃ x, i = .ldVxK x) → (∀ k, s.key k = false) → t.pc = s.pc
  index : t.i ≠ s.i → (∃ nnn, i = .ldI nnn) ∨ (∃ x, i = .addI x) ∨ ∃ x, i = .ldF x
  sp : t.sp ≠ s.sp → i = .ret ∨ ∃ nnn, i = .call nnn
  stack : t.stack ≠ s.stack → ∃ nnn, i = .call nnn
  delay : t.dt ≠ s.dt → ∃ x, i = .ldDtVx x
  sound : t.st ≠ s.st → ∃ x, i = .ldStVx x
  mem : t.mem ≠ s.mem → (∃ x, i = .ldB x) ∨ ∃ x, i = .storeRegs x
  display : t.display ≠ s.display → i = .cls ∨ ∃ x y n, i = .drw x y n
  keys : t.keys = s.keys
  status : t.status = s.status
  draws : t.draws ≠ s.draws → ∃ x kk, i = .rnd x kk
  quirks : t.quirks = s.quirks
  schedule : t.schedule = s.schedule

/-- Everything an instruction can do: raise the error that the table gives and nothing else, or go on. -/
theorem exec_cases (i : Instr) (s : State) :
    (∃ k, raises i s = some k ∧ exec i s = raise k s) ∨
    (raises i s = none ∧ ∃ t, exec i s = .next t ∧ Effect i s t) := by
  cases i
  case ret =>
    rcases execRet_cases s with ⟨j, h, e⟩ | ⟨h, e⟩
    · have h0 : s.sp ≠ 0 := fun h0 => by simp [h0] at h
      exact .inr ⟨if_neg h0, _, e, by constructor <;> simp [State.reg, setsPc]⟩
    · exact .inl ⟨_, if_pos h, e⟩
  case call nnn =>
    rcases execCall_cases nnn s with ⟨j, h, e⟩ | ⟨h, e⟩
    · have h16 : s.sp ≠ 16 := fun h16 => by
        have : s.sp.val = 16 := congrArg Fin.val h16
        omega
      exact .inr ⟨if_neg h16, _, e, by constructor <;> simp [State.reg, setsPc]⟩
    · exact .inl ⟨_, if_pos h, e⟩
  case drw x y n =>
    rcases execDrw_cases x y n s with ⟨h, e⟩ | ⟨h, e⟩
    · exact .inr ⟨if_neg (by omega), _, e, by constructor <;> simp +contextual [mayWriteReg]⟩
    · exact .inl ⟨_, if_pos (by omega), e⟩
  case ldB x =>
    rcases execLdB_cases x s with ⟨h, e⟩ | ⟨h, e⟩
    · exact .inr ⟨if_neg (by omega), _, e, by constructor <;> simp⟩
    · exact .inl ⟨_, if_pos (by omega), e⟩
  case storeRegs x =>
    rcases execStoreRegs_cases x s with ⟨h, e⟩ | ⟨h, e⟩
    · exact .inr ⟨if_neg (by omega), _, e, by constructor <;> simp⟩
    · exact .inl ⟨_, if_pos (by omega), e⟩
  case loadRegs x =>
    rcases execLoadRegs_cases x s with ⟨h, e⟩ | ⟨h, e⟩
    · refine .inr ⟨if_neg (by omega), _, e, ?_⟩
      constructor
      case reg =>
        exact fun r hr => (getElem_fillRegs_bytesFrom s _ x r).trans (if_neg hr)
      all_goals simp
    · exact .inl ⟨_, if_pos (by omega), e⟩
  case addI x =>
    rcases execAddI_cases x s with ⟨-, e⟩ | ⟨hq, e⟩
    · exact .inr ⟨rfl, _, e, by constructor <;> simp⟩
    · exact .inr ⟨rfl, _, e, by constructor <;> simp +contextual [mayWriteReg, hq]⟩
  case ldVxK x =>
    rcases execLdVxK_cases x s with ⟨-, e⟩ | ⟨k, hk, -, e⟩
    · exact .inr ⟨rfl, _, e, by constructor <;> simp [setsPc]⟩
    · have hdown : ∃ k, s.key k = true := ⟨k, hk⟩
      exact .inr ⟨rfl, _, e, by constructor <;> simp +contextual [mayWriteReg, setsPc, hdown]⟩
  all_goals exact .inr ⟨rfl, _, rfl, by constructor <;> simp +contextual [mayWriteReg, setsPc]⟩

theorem exec_of_raises {k : Fault} (h : raises i s = some k) : exec i s = raise k s := by
  rcases exec_cases i s with ⟨k', hk, e⟩ | ⟨hn, -⟩
  · obtain rfl := Option.some.inj (hk.symm.trans h)
    exact e
  · simp [hn] at h

theorem exec_of_raises_none (h : raises i s = none) : ∃ t, exec i s = .next t ∧ Effect i s t := by
  rcases exec_cases i s with ⟨k, hk, -⟩ | ⟨-, e⟩
  · simp [hk] at h
  · exact e

/-- Inversion of an answer: the table's error and nothing else, or the effect. -/
theorem exec_next_cases (h : exec i s = .next t) :
    (∃ k, raises i s = some k ∧ t = s.setStatus (.halted k)) ∨ (raises i s = none ∧ Effect i s t) := by
  rcases exec_cases i s with ⟨k, hk, e⟩ | ⟨hn, t', e, heff⟩
  · exact .inl ⟨k, hk, Host.Outcome.next.inj (h.symm.trans e)⟩
  · obtain rfl := Host.Outcome.next.inj (h.symm.trans e)
    exact .inr ⟨hn, heff⟩

theorem exec_answers (i : Instr) (s : State) : ∃ t, exec i s = .next t := by
  rcases exec_cases i s with ⟨k, -, e⟩ | ⟨-, t, e, -⟩
  · exact ⟨_, e⟩
  · exact ⟨t, e⟩

theorem stepCycle_answers (s : State) : ∃ t, stepCycle s = .next t := by
  rcases stepCycle_cases s with ⟨k, -, e⟩ | ⟨-, -, e⟩ | ⟨op, r, -, -, -, e⟩ | ⟨op, i, -, -, -, e⟩
  · exact ⟨s, e⟩
  · exact ⟨_, e⟩
  · exact ⟨_, e⟩
  · rw [e]; exact exec_answers i s

theorem flagOf_eq_zero_or_one (c : Bool) : flagOf c = 0 ∨ flagOf c = 1 := by
  cases c
  · exact .inl rfl
  · exact .inr rfl

/-! ### The statements -/

/-- Settles O10: the two things that an instruction can do. -/
theorem errorsAreRaisedExactlyAsTabled : Obligations.ErrorsAreRaisedExactlyAsTabled := by
  refine fun i s => ⟨fun k => exec_of_raises, fun h => ?_⟩
  obtain ⟨t, e, heff⟩ := exec_of_raises_none h
  exact ⟨t, e, heff.status⟩

/-- Settles O26: the clause on PC of the effect. -/
theorem otherInstructionsAdvanceByTwo : Obligations.OtherInstructionsAdvanceByTwo := by
  intro i s hpc hn
  obtain ⟨t, e, heff⟩ := exec_of_raises_none hn
  exact ⟨t, e, heff.pc hpc⟩

/-- Settles O50: an error changes the status alone; otherwise each clause is one of the effect. -/
theorem eachPartHasItsWriters : Obligations.EachPartHasItsWriters := by
  intro i s t h
  rcases exec_next_cases h with ⟨k, hk, rfl⟩ | ⟨hn, heff⟩
  · exact ⟨fun r hr => absurd rfl hr, fun hp => absurd rfl hp, fun hd => absurd rfl hd, fun hd => absurd rfl hd,
      fun _ => rfl, fun _ => ⟨k, hk, rfl⟩, fun hd => absurd rfl hd, fun hd => absurd rfl hd, fun hd => absurd rfl hd,
      fun hd => absurd rfl hd, fun hd => absurd rfl hd, fun hd => absurd rfl hd, rfl, rfl⟩
  · exact ⟨fun r => not_imp_comm.1 (heff.reg r), fun hp => ⟨hn, fun ⟨hw, hk⟩ => hp (heff.wait hw hk)⟩, heff.delay,
      heff.sound, fun k => State.key_congr heff.keys k, fun hs => absurd heff.status hs, heff.index, heff.sp, heff.stack,
      heff.mem, heff.display, heff.draws, heff.quirks, heff.schedule⟩

/-- Settles O49: for an instruction by its writers, for the two other agents by what the event is. -/
theorem eachAgentWritesOnlyItsParts : Obligations.EachAgentWritesOnlyItsParts := by
  refine ⟨fun i s t h => ?_, fun s t rest hs h => ?_, fun s t keys rest hs h => ?_⟩
  · obtain ⟨-, -, hdt, hst, hkeys, -⟩ := eachPartHasItsWriters i s t h
    exact ⟨hkeys, hdt, hst⟩
  · obtain rfl := Host.Outcome.next.inj ((step_of_schedule_cons hs).symm.trans h)
    rfl
  · obtain rfl := Host.Outcome.next.inj ((step_of_schedule_cons hs).symm.trans h)
    rfl

/-- Settles O11: every instruction answers, so every cycle does. -/
theorem everyEventButALongResetAnswers : Obligations.EveryEventButALongResetAnswers := by
  refine fun s => ⟨fun image rest hs hlen => ?_, fun hfit => ?_⟩
  · rcases resetWith_cases image { s with schedule := rest } with ⟨hle, -⟩ | ⟨-, e⟩
    · omega
    · exact (step_of_schedule_cons hs).trans e
  · cases hs : s.schedule with
    | nil => rw [step_of_schedule_nil hs]; exact stepCycle_answers s
    | cons e rest =>
      rw [step_of_schedule_cons hs]
      cases e with
      | step => exact stepCycle_answers _
      | tick => exact ⟨_, rfl⟩
      | setPressed keys => exact ⟨_, rfl⟩
      | reset image =>
        obtain ⟨t, e, -⟩ := resetWith_of_length_le (hfit image rest hs) { s with schedule := rest }
        exact ⟨t, e⟩

/-- Settles O51: in each of the instructions named, what VF gets is a flag. -/
theorem flagsAreZeroOrOne : Obligations.FlagsAreZeroOrOne := by
  intro i s t h hn hflag
  suffices hf : ∃ c, t.reg 15 = flagOf c by
    obtain ⟨c, hc⟩ := hf
    rw [hc]
    exact flagOf_eq_zero_or_one c
  rcases hflag with ⟨x, y, rfl | rfl | rfl | rfl | rfl⟩ | ⟨x, y, n, rfl⟩ | ⟨⟨x, rfl⟩, hq⟩
  case inr.inl =>
    obtain rfl := Host.Outcome.next.inj (h.symm.trans (execDrw_of_raises_none hn))
    exact ⟨_, State.reg_setReg_self _ 15 _⟩
  case inr.inr =>
    rcases execAddI_cases x s with ⟨hq', -⟩ | ⟨-, e⟩
    · simp [hq] at hq'
    · obtain rfl := Host.Outcome.next.inj (h.symm.trans e)
      exact ⟨_, State.reg_setReg_self _ 15 _⟩
  all_goals
    obtain rfl := Host.Outcome.next.inj h
    exact ⟨_, State.reg_flag_writeRegFlag _ _ _ _⟩

end Sys2Proof.Machine
end

section
/-! The proofs of the statements on what every step keeps: the invariant (10_state R19), and that the popped stack entries
and the sound timer are never read (10_state R21, R22). -/

namespace Sys2Proof.Machine

variable {s t u : State} {i : Instr}

/-! ### The invariant -/

/-- The bound on PC (10_state R19): from an address that can be fetched from, with bounded return addresses, no
instruction takes PC above 0x10FE. -/
theorem exec_pc_le (h : exec i s = .next t) (hpc : s.pc.toNat ≤ 0xFFE) (hent : ∀ j, (s.entry j).toNat ≤ 0x1000) :
    t.pc.toNat ≤ 0x10FE := by
  have hskip (c : Bool) : (s.skipIf c).pc.toNat ≤ 0x10FE := by
    rw [State.skipIf_pc_add]
    split <;> bv_omega
  rcases exec_next_cases h with ⟨k, -, rfl⟩ | ⟨hn, heff⟩
  · rw [State.setStatus_pc]
    omega
  cases hset : setsPc i with
  | false =>
    rw [heff.pc hset]
    bv_omega
  | true =>
    cases i
    case ret =>
      rcases execRet_cases s with ⟨j, -, e⟩ | ⟨h0, -⟩
      · obtain rfl := Host.Outcome.next.inj (h.symm.trans e)
        exact Nat.le_trans (hent j) (by decide)
      · rw [raises, if_pos h0] at hn
        cases hn
    case call nnn =>
      rcases execCall_cases nnn s with ⟨j, -, e⟩ | ⟨h16, -⟩
      · obtain rfl := Host.Outcome.next.inj (h.symm.trans e)
        show (zext12 nnn).toNat ≤ _
        rw [zext12_toNat]
        omega
      · rw [raises, if_pos h16] at hn
        cases hn
    case jmp nnn =>
      obtain rfl := Host.Outcome.next.inj h
      rw [State.setPc_pc, zext12_toNat]
      omega
    case jmpV0 nnn =>
      obtain rfl := Host.Outcome.next.inj h
      rw [State.setPc_pc, zext12_add_zext8_toNat]
      omega
    case ldVxK x =>
      rcases execLdVxK_cases x s with ⟨-, e⟩ | ⟨k, -, -, e⟩
      · obtain rfl := Host.Outcome.next.inj (h.symm.trans e)
        omega
      · obtain rfl := Host.Outcome.next.inj (h.symm.trans e)
        rw [State.writeReg_pc]
        bv_omega
    case seImm | sneImm | seReg | sneReg | skp | sknp =>
      obtain rfl := Host.Outcome.next.inj h
      exact hskip _
    all_goals cases hset

theorem exec_mem_wf (h : exec i s = .next t) (hm : s.mem.wf = true) : t.mem.wf = true := by
  rcases exec_next_cases h with ⟨k, -, rfl⟩ | ⟨-, heff⟩
  · exact hm
  by_cases hmem : t.mem = s.mem
  · rwa [hmem]
  rcases heff.mem hmem with ⟨x, rfl⟩ | ⟨x, rfl⟩
  · rcases execLdB_cases x s with ⟨hr, e⟩ | ⟨-, e⟩
    · obtain rfl := Host.Outcome.next.inj (h.symm.trans e)
      exact Memory.wf_storeFrom hm _ _ (.inr hr)
    · obtain rfl := Host.Outcome.next.inj (h.symm.trans e)
      exact hm
  · rcases execStoreRegs_cases x s with ⟨hr, e⟩ | ⟨-, e⟩
    · obtain rfl := Host.Outcome.next.inj (h.symm.trans e)
      exact Memory.wf_storeFrom hm _ _ (.inr (by rw [State.length_regBlock]; exact hr))
    · obtain rfl := Host.Outcome.next.inj (h.symm.trans e)
      exact hm

/-- A return address is at most 0xFFE + 2 (40_control_flow R83). -/
theorem exec_entry_le (h : exec i s = .next t) (hpc : s.pc.toNat ≤ 0xFFE) (hent : ∀ j, (s.entry j).toNat ≤ 0x1000)
    (j : Fin 16) : (t.entry j).toNat ≤ 0x1000 := by
  rcases exec_next_cases h with ⟨k, -, rfl⟩ | ⟨-, heff⟩
  · exact hent j
  by_cases hstack : t.stack = s.stack
  · rw [State.entry, hstack]
    exact hent j
  obtain ⟨nnn, rfl⟩ := heff.stack hstack
  rcases execCall_cases nnn s with ⟨k, -, e⟩ | ⟨-, e⟩
  · obtain rfl := Host.Outcome.next.inj (h.symm.trans e)
    rw [State.entry_setStackSpPc]
    split
    · bv_omega
    · exact hent j
  · obtain rfl := Host.Outcome.next.inj (h.symm.trans e)
    exact hent j

theorem exec_inv (h : exec i s = .next t) (hinv : s.Inv) (hpc : s.pc.toNat ≤ 0xFFE) : t.Inv := by
  obtain ⟨hm, -, hent⟩ := hinv
  exact ⟨exec_mem_wf h hm, exec_pc_le h hpc hent, exec_entry_le h hpc hent⟩

theorem State.pc_le_of_fetch {op : Word} (h : s.fetch = some op) : s.pc.toNat ≤ 0xFFE := by
  rcases s.fetch_cases with ⟨hpc, -⟩ | ⟨-, e⟩
  · exact hpc
  · simp [h] at e

theorem stepCycle_inv (h : stepCycle s = .next t) (hinv : s.Inv) : t.Inv := by
  rcases stepCycle_cases s with ⟨k, -, e⟩ | ⟨-, -, e⟩ | ⟨op, r, -, -, -, e⟩ | ⟨op, i, -, hf, -, e⟩
  · obtain rfl := Host.Outcome.next.inj (h.symm.trans e)
    exact hinv
  · obtain rfl := Host.Outcome.next.inj (h.symm.trans e)
    exact hinv
  · obtain rfl := Host.Outcome.next.inj (h.symm.trans e)
    exact hinv
  · exact exec_inv (e.symm.trans h) hinv (State.pc_le_of_fetch hf)

theorem reset_inv : State.reset.Inv :=
  ⟨rfl, by decide, fun j => by rw [reset_entry]; decide⟩

theorem resetWith_inv {image : List Byte} (h : resetWith image s = .next t) : t.Inv := by
  obtain ⟨hm, hpc, hent⟩ := reset_inv
  rcases resetWith_cases image s with ⟨hlen, e⟩ | ⟨-, e⟩
  · obtain rfl := Host.Outcome.next.inj (h.symm.trans e)
    exact ⟨Memory.wf_storeFrom hm _ _ (.inr (by omega)), hpc, hent⟩
  · cases h.symm.trans e

theorem applyEvent_inv {e : Event} (h : applyEvent e s = .next t) (hinv : s.Inv) : t.Inv := by
  cases e with
  | step => exact stepCycle_inv h hinv
  | tick => obtain rfl := Host.Outcome.next.inj h; exact hinv
  | setPressed keys => obtain rfl := Host.Outcome.next.inj h; exact hinv
  | reset image => exact resetWith_inv h

/-! ### The parts that are not read -/

/-- The state with another stack array and another sound timer: the two parts that an instruction does not read, but for
the entries below SP. -/
abbrev State.withHidden (s : State) (w : Vector Word 16) (b : Byte) : State := { s with stack := w, st := b }

/-- The stack array holds the entries of the state below SP. -/
def State.StackAgrees (s : State) (w : Vector Word 16) : Prop := ∀ j : Fin 16, j.val < s.sp.val → w[j.val] = s.entry j

/-- A push on two stacks that agree makes two that agree one entry further up. -/
theorem State.StackAgrees.push {w : Vector Word 16} (hw : s.StackAgrees w) {j : Fin 16} (hj : s.sp.val = j.val)
    (a : Word) (k : Fin 16) (hk : k.val < j.val + 1) : (w.set j.val a)[k.val] = (s.stack.set j.val a)[k.val] := by
  rw [Vector.getElem_set, Vector.getElem_set]
  split
  · rfl
  · exact hw k (by omega)

theorem sameButResidue_iff {s' : State} :
    SameButResidue s s' ↔ ∃ w, s' = s.withHidden w s.st ∧ s.StackAgrees w := by
  constructor
  · rintro ⟨heq, hent⟩
    exact ⟨s'.stack, heq, hent⟩
  · rintro ⟨w, rfl, hw⟩
    exact ⟨rfl, hw⟩

theorem raises_withHidden (i : Instr) (s : State) (w : Vector Word 16) (b : Byte) :
    raises i (s.withHidden w b) = raises i s := by
  cases i <;> rfl

/-- What is hidden stays hidden: an instruction answers the same, but for the hidden parts, and of these it keeps equal
what was equal. -/
theorem exec_withHidden (h : exec i s = .next t) (w : Vector Word 16) (b : Byte) (hw : s.StackAgrees w) :
    ∃ w' b', exec i (s.withHidden w b) = .next (t.withHidden w' b') ∧ t.StackAgrees w' ∧ (b = s.st → b' = t.st) ∧
      (w = s.stack → w' = t.stack) := by
  have hraises := raises_withHidden i s w b
  rcases exec_next_cases h with ⟨k, hk, rfl⟩ | ⟨hn, -⟩
  · exact ⟨w, b, exec_of_raises (hraises.trans hk), hw, id, id⟩
  have hn' := hraises.trans hn
  cases i
  case ret =>
    rcases execRet_cases s with ⟨j, hj, e⟩ | ⟨h0, -⟩
    · obtain rfl := Host.Outcome.next.inj (h.symm.trans e)
      have e' := execRet_of_sp_succ (s.withHidden w b) j hj
      have htop : (s.withHidden w b).entry j = s.entry j := hw j (by omega)
      rw [htop] at e'
      exact ⟨w, b, e', fun k hk => hw k (hj ▸ Nat.lt_succ_of_lt hk), id, id⟩
    · rw [raises, if_pos h0] at hn
      cases hn
  case call nnn =>
    rcases execCall_cases nnn s with ⟨j, hj, e⟩ | ⟨h16, -⟩
    · obtain rfl := Host.Outcome.next.inj (h.symm.trans e)
      exact ⟨_, b, execCall_of_room nnn (s.withHidden w b) j hj, hw.push hj _, id, fun e => by rw [e]⟩
    · rw [raises, if_pos h16] at hn
      cases hn
  case drw =>
    obtain rfl := Host.Outcome.next.inj (h.symm.trans (execDrw_of_raises_none hn))
    exact ⟨w, b, execDrw_of_raises_none hn', hw, id, id⟩
  case ldB =>
    obtain rfl := Host.Outcome.next.inj (h.symm.trans (execLdB_of_raises_none hn))
    exact ⟨w, b, execLdB_of_raises_none hn', hw, id, id⟩
  case storeRegs =>
    obtain rfl := Host.Outcome.next.inj (h.symm.trans (execStoreRegs_of_raises_none hn))
    exact ⟨w, b, execStoreRegs_of_raises_none hn', hw, id, id⟩
  case loadRegs =>
    obtain rfl := Host.Outcome.next.inj (h.symm.trans (execLoadRegs_of_raises_none hn))
    exact ⟨w, b, execLoadRegs_of_raises_none hn', hw, id, id⟩
  case ldVxK x =>
    rcases execLdVxK_cases x s with ⟨hk, e⟩ | ⟨k, hk, hlt, e⟩
    · obtain rfl := Host.Outcome.next.inj (h.symm.trans e)
      exact ⟨w, b, execLdVxK_of_none x hk, hw, id, id⟩
    · obtain rfl := Host.Outcome.next.inj (h.symm.trans e)
      exact ⟨w, b, execLdVxK_of_least x hk hlt, hw, id, id⟩
  case addI x =>
    rcases execAddI_cases x s with ⟨hq, e⟩ | ⟨hq, e⟩
    · obtain rfl := Host.Outcome.next.inj (h.symm.trans e)
      exact ⟨w, b, by simp only [exec, execAddI, hq]; rfl, hw, id, id⟩
    · obtain rfl := Host.Outcome.next.inj (h.symm.trans e)
      exact ⟨w, b, by simp only [exec, execAddI, hq]; rfl, hw, id, id⟩
  case ldStVx x =>
    obtain rfl := Host.Outcome.next.inj h
    exact ⟨w, s.reg x, rfl, hw, fun _ => rfl, id⟩
  all_goals
    obtain rfl := Host.Outcome.next.inj h
    exact ⟨w, b, rfl, hw, id, id⟩

theorem stepCycle_withHidden (h : stepCycle s = .next t) {w : Vector Word 16} (hw : s.StackAgrees w) :
    ∃ w', stepCycle (s.withHidden w s.st) = .next (t.withHidden w' t.st) ∧ t.StackAgrees w' := by
  rcases stepCycle_cases s with ⟨k, hs, e⟩ | ⟨hs, hf, e⟩ | ⟨op, r, hs, hf, hd, e⟩ | ⟨op, i, hs, hf, hd, e⟩
  · obtain rfl := Host.Outcome.next.inj (h.symm.trans e)
    exact ⟨w, stepCycle_of_halted (k := k) hs, hw⟩
  · obtain rfl := Host.Outcome.next.inj (h.symm.trans e)
    exact ⟨w, stepCycle_of_fetch_none hs hf, hw⟩
  · obtain rfl := Host.Outcome.next.inj (h.symm.trans e)
    exact ⟨w, stepCycle_of_decode_error (op := op) hs hf hd, hw⟩
  · obtain ⟨w', b, he, hw', hb, -⟩ := exec_withHidden (e.symm.trans h) w s.st hw
    obtain rfl := hb rfl
    exact ⟨w', (stepCycle_of_decode_ok (s := s.withHidden w s.st) hs hf hd).trans he, hw'⟩

theorem applyEvent_withHidden {e : Event} (h : applyEvent e s = .next t) {w : Vector Word 16} (hw : s.StackAgrees w) :
    ∃ w', applyEvent e (s.withHidden w s.st) = .next (t.withHidden w' t.st) ∧ t.StackAgrees w' := by
  cases e with
  | step => exact stepCycle_withHidden h hw
  | tick => obtain rfl := Host.Outcome.next.inj h; exact ⟨w, rfl, hw⟩
  | setPressed keys => obtain rfl := Host.Outcome.next.inj h; exact ⟨w, rfl, hw⟩
  | reset image => exact ⟨t.stack, h, fun _ _ => rfl⟩

/-! ### The statements -/

/-- Settles O48: the bound on PC holds where a fetch succeeds, and the other events touch no part the invariant speaks of,
but for `reset`, which meets it afresh. -/
theorem everyStepKeepsTheInvariant : Obligations.EveryStepKeepsTheInvariant := by
  intro s t hinv h
  cases hs : s.schedule with
  | nil => exact stepCycle_inv ((step_of_schedule_nil hs).symm.trans h) hinv
  | cons e rest => exact applyEvent_inv ((step_of_schedule_cons hs).symm.trans h) hinv

/-- Settles O47: memory lists nothing, PC is 0x200 and every entry is 0. -/
theorem resetMeetsTheInvariant : Obligations.ResetMeetsTheInvariant := reset_inv

/-- Settles O53: the two states agree on the stack, so the two answers do. -/
theorem soundTimerIsNeverRead : Obligations.SoundTimerIsNeverRead := by
  intro i s t b h
  obtain ⟨w, c, e, -, -, hw⟩ := exec_withHidden h s.stack b fun _ _ => rfl
  obtain rfl := hw rfl
  exact ⟨c, e⟩

/-- Settles O52: no instruction reads an entry at SP or above, and the other events read none. -/
theorem poppedEntriesAreNeverRead : Obligations.PoppedEntriesAreNeverRead := by
  intro s s' t hsame h
  obtain ⟨w, rfl, hw⟩ := sameButResidue_iff.1 hsame
  suffices ∃ w', step (s.withHidden w s.st) = .next (t.withHidden w' t.st) ∧ t.StackAgrees w' by
    obtain ⟨w', e, hw'⟩ := this
    exact ⟨_, e, sameButResidue_iff.2 ⟨w', rfl, hw'⟩⟩
  cases hs : s.schedule with
  | nil =>
    rw [step_of_schedule_nil (s := s.withHidden w s.st) hs]
    exact stepCycle_withHidden ((step_of_schedule_nil hs).symm.trans h) hw
  | cons e rest =>
    rw [step_of_schedule_cons (s := s.withHidden w s.st) hs]
    exact applyEvent_withHidden (s := { s with schedule := rest }) ((step_of_schedule_cons hs).symm.trans h) hw

end Sys2Proof.Machine
end
